-- ==== Sys2Proof/Word.lean ====
section
/-! DEFINITION. The widths of the block (00_scope.md R8): bytes of the region, 32-bit registers and
offsets, 5-bit values of the codec, and the 40-bit value of one group. -/

namespace Sys2Proof

/-- One location of the byte region, and one encode-table entry (R8). -/
abbrev Byte := BitVec 8

/-- A host-visible register, a region offset, a command word (R8). -/
abbrev Word := BitVec 32

/-- A 5-bit value: what one BASE32 character stands for (R8). -/
abbrev Quint := BitVec 5

/-- The 40-bit value of one group, five bytes or eight 5-bit values (20_memory.md R53). -/
abbrev Group := BitVec 40

end Sys2Proof
end

