-- ==== Sys2Proof/Config.lean ====
section
/-! DEFINITION. What one implementation fixes (the open parameters of 00_scope.md R7) and the free
values, of which nothing is known. -/

namespace Sys2Proof

/-- The four open parameters of 00_scope.md R7. They are held as 32-bit values, the width of the
registers `IN_PTR`, `PAGE_SIZE` and `MAX_PAGES` that show them (R8, R28, R32, R33; DEDUCED, log 7). -/
structure Params where
  /-- `PAGE_SIZE`: the growth unit of the region, in bytes. -/
  pageSize : Word
  /-- `RESERVED_SIZE`: the size of the reserved header, in bytes. -/
  reservedSize : Word
  /-- `INITIAL_PAGES`: the region's size in pages after reset. -/
  initialPages : Word
  /-- `MAX_PAGES`: the host-imposed limit on the region's pages. -/
  maxPages : Word
deriving DecidableEq, Repr

/-- The constraints of 00_scope.md R7: `PAGE_SIZE` is a power of two, `RESERVED_SIZE ≤ INITIAL_PAGES *
PAGE_SIZE`, `1 ≤ INITIAL_PAGES ≤ MAX_PAGES`, and `MAX_PAGES * PAGE_SIZE ≤ 2^32`. -/
structure Params.Valid (p : Params) : Prop where
  pageSize_pow2 : ∃ k, k < 32 ∧ p.pageSize.toNat = 2 ^ k
  reserved_le : p.reservedSize.toNat ≤ p.initialPages.toNat * p.pageSize.toNat
  initial_pos : 1 ≤ p.initialPages.toNat
  initial_le_max : p.initialPages.toNat ≤ p.maxPages.toNat
  space_le : p.maxPages.toNat * p.pageSize.toNat ≤ 2 ^ 32

/-- Parameter set A, the example column of 00_scope.md R7 and the set of 95_test_vectors.md.
DESIGN CHOICE (log 1): R7 leaves the parameters open. `State.reset` takes this set; every statement
is made for all parameters. -/
def Config.setA : Params :=
  { pageSize := 65536#32, reservedSize := 1024#32, initialPages := 1#32, maxPages := 2#32 }

/-- FREE VALUE (log 5): the byte of the `n`-th draw, for a host read of the header (20_memory.md R63), of an
`UNWRITTEN` location (R64), or of the region while `BUSY` (70_reset_and_hazards.md R266). -/
opaque Config.freeByte : Nat → Byte

/-- FREE VALUE (log 5): the word of the `n`-th draw, for a host read of `OUT_PTR`, `OUT_LEN` or `PAGES`
while `BUSY` (70_reset_and_hazards.md R266). -/
opaque Config.freeWord : Nat → Word

end Sys2Proof
end

