-- ==== Sys2Proof/Machine/Tables.lean ====
section
/-! DEFINITION. The two lookup tables and their construction (40_tables.md R100 to R104). -/

namespace Sys2Proof.Machine

/-- `ET`: 32 entries of 8 bits (10_state.md R35). -/
abbrev EncTable := Vector Byte 32

/-- `DT`: 256 entries, each a 5-bit value or the sentinel `INVALID`, here `none` (R35, 40_tables.md R102; log 9). -/
abbrev DecTable := Vector (Option Quint) 256

/-- `ET[i]` as `BUILD_TABLES` computes it (R104, first loop). -/
def encChar (i : Nat) : Byte :=
  if i ≤ 25 then BitVec.ofNat 8 (0x41 + i) else BitVec.ofNat 8 (0x32 + (i - 26))

/-- `BUILD_TABLES`, first loop: every entry of `ET` is written (R104). -/
def buildEnc : EncTable :=
  ⟨⟨(List.range 32).map encChar⟩, rfl⟩

/-- One table store `DT[c] <- v`. -/
def putDec (t : DecTable) (c : Byte) (v : Quint) : DecTable :=
  t.set c.toNat (some v) c.isLt

/-- Look a byte up in `DT`. -/
def decLookup (t : DecTable) (c : Byte) : Option Quint :=
  t[c.toNat]'c.isLt

/-- Look a 5-bit value up in `ET`. -/
def encLookup (t : EncTable) (v : Quint) : Byte :=
  t[v.toNat]'v.isLt

/-- `BUILD_TABLES`, the other three loops (R104): every entry `INVALID`, then the inverse of `et`, then the
lower-case letters. -/
def buildDec (et : EncTable) : DecTable :=
  let allInvalid : DecTable := Vector.replicate 256 none
  let inverse := (List.range 32).foldl
    (fun t i => putDec t (encLookup et (BitVec.ofNat 5 i)) (BitVec.ofNat 5 i)) allInvalid
  (List.range 26).foldl (fun t i => putDec t (BitVec.ofNat 8 (0x61 + i)) (BitVec.ofNat 5 i)) inverse

/-- A decode-table entry in the 8-bit form the spec stores: the sentinel is 0xFF (R102). -/
def decEntryByte : Option Quint → Byte
  | none => 0xFF#8
  | some v => v.setWidth 8

end Sys2Proof.Machine
end

