-- ==== Sys2Proof/Syntax.lean ====
section
/-! DEFINITION. The syntax: commands and host bus transactions (30_encoding.md R70 to R75), one
constructor of `Instr` per row of opcode_table.json, and the moves of the host (R76, R77, R261). -/

namespace Sys2Proof

/-- The commands an accepted `CMD` word can select (30_encoding.md R72): what the phase
`BUSY(op, len)` latches as `op` (10_state.md R23). -/
inductive Command where
  | buildTables
  | prepEncode
  | prepDecode
  | encode
  | decode
  | illegal
deriving DecidableEq, Repr

/-- The ten rows of opcode_table.json. The first six are the engine's commands (format `CMDW`),
the last four the host's bus transactions (format `HBUS`). -/
inductive Instr where
  /-- `BUILD_TABLES` (40_tables.md R104). -/
  | buildTables
  /-- `PREP_ENCODE` (43_growth.md R193). -/
  | prepEncode
  /-- `PREP_DECODE` (43_growth.md R194). -/
  | prepDecode
  /-- `ENCODE` (41_encode.md R120). -/
  | encode
  /-- `DECODE` (42_decode.md R150). -/
  | decode
  /-- `ILLEGAL` (30_encoding.md R72), with the reserved command word it was decoded from. -/
  | illegal (w : Word)
  /-- `REG_RD` at register offset `addr` (44_host_access.md R210). -/
  | regRd (addr : Word)
  /-- `REG_WR` of `data` at register offset `addr` (R211). -/
  | regWr (addr data : Word)
  /-- `MEM_RD` at region offset `addr` (R212). -/
  | memRd (addr : Word)
  /-- `MEM_WR` at region offset `addr`; of `data` only bits [7:0] count (R213). -/
  | memWr (addr data : Word)
deriving DecidableEq, Repr

/-- A host transaction as it stands on the bus, the triple `(KIND, ADDR, DATA)` of 30_encoding.md R74. -/
structure Txn where
  kind : BitVec 2
  addr : Word
  data : Word
deriving DecidableEq, Repr

/-- The two encoded forms of the block: a command word (R70) and a bus transaction (R74). -/
inductive Frame where
  | cmdw (w : Word)
  | hbus (t : Txn)
deriving DecidableEq, Repr

/-- The nine host-visible registers (10_state.md R24). -/
inductive Reg where
  | cmd
  | len
  | status
  | inPtr
  | outPtr
  | outLen
  | pages
  | pageSize
  | maxPages
deriving DecidableEq, Repr

/-- The result codes of `STATUS.ERRCODE` (60_exceptions.md R230). Codes 5, 6 and 7 are never produced,
so no constructor stands for them. -/
inductive ErrCode where
  | none
  | invalidLength
  | invalidCharacter
  | outOfMemory
  | illegalCommand
deriving DecidableEq, Repr

/-- The two agents that act on the block (10_state.md R20). -/
inductive Agent where
  | engine
  | host
deriving DecidableEq, Repr

/-- What the host can do to the block in one move. -/
inductive HostMove where
  /-- A bus transaction (30_encoding.md R74). -/
  | bus (t : Txn)
  /-- A register access narrower or wider than 32 bits (44_host_access.md R217). -/
  | regOtherWidth
  /-- The pseudo-instruction `wait`: `REG_RD STATUS`, repeated while bit 0 of the response is 1 (R77). -/
  | wait
  /-- Reset of the block, in either phase (70_reset_and_hazards.md R260, R261). -/
  | reset
deriving DecidableEq, Repr

end Sys2Proof
end

