-- ==== Sys2Proof/Machine/State.lean ====
section
/-! DEFINITION. The machine's state (10_state.md), the reasons a step can stop, and the state after reset. -/

namespace Sys2Proof.Machine

/-- The engine's phase (10_state.md R23): `IDLE`, or `BUSY(op, len)` with the accepted command and the value `LEN`
held at acceptance. -/
inductive Phase where
  | idle
  | busy (op : Command) (len : Word)
deriving DecidableEq, Repr

/-- The byte region (R36) as the cells that hold a byte, addresses strictly rising. A location that is not listed
is `UNWRITTEN`. -/
abbrev Memory := List Host.Cell

/-- What an address that is not listed reads as: `UNWRITTEN`, no byte at all (R36; log 13). -/
def Memory.unlisted : Option Byte := none

/-- The canonical form: addresses strictly rising. No entry can equal what an unlisted address reads as, since that is
no byte. -/
abbrev Memory.wf (m : Memory) : Prop := m.Pairwise (fun c d => c.1 < d.1)

/-- The model faults, exactly those of 60_exceptions.md R235. Each is safe: the spec gives the situation no meaning. -/
inductive Fault where
  /-- `ENCODE` or `DECODE` reads an `UNWRITTEN` input byte (20_memory.md R65). Raised by `encode` and `decode`. Safe. -/
  | unwrittenInput
  /-- `REG_WR` to `CMD` in phase `BUSY` (70_reset_and_hazards.md R263). Raised by `regWr`. Safe. -/
  | commandWhileBusy
  /-- `REG_WR` to `LEN` in phase `BUSY` (R264). Raised by `regWr`. Safe. -/
  | lenWriteWhileBusy
  /-- `MEM_WR` in phase `BUSY` (R265). Raised by `memWr`. Safe. -/
  | memWriteWhileBusy
  /-- `MEM_WR` below `RESERVED_SIZE` (20_memory.md R63). Raised by `memWr`. Safe. -/
  | headerWrite
  /-- `MEM_RD` or `MEM_WR` at or above `PAGES * PAGE_SIZE` (R62). Raised by `memRd` and `memWr`. Safe. -/
  | outOfBounds
  /-- `REG_RD` or `REG_WR` at a reserved offset or with a width other than 32 bits (44_host_access.md R217). Raised by
  `regRd`, `regWr` and the host move `regOtherWidth`. Safe. -/
  | reservedRegister
deriving DecidableEq, Repr

/-- Refusals. No meaning of this model refuses. -/
inductive Refusal where
  /-- The instruction has no meaning in the model; raised by no arm of `exec`. Safe. -/
  | notModelled (mnemonic : String)
deriving DecidableEq, Repr

/-- Everything the spec gives the block, and the host's side of the bus. INVENTORY.md lists each field with its rule. -/
structure State where
  /-- The open parameters of 00_scope.md R7; `IN_PTR`, `PAGE_SIZE` and `MAX_PAGES` are views of them (R28, R32, R33). -/
  params : Params
  /-- The engine phase with the latched `op` and `len` (R23); `STATUS.BUSY` is a view of it (R27). -/
  phase : Phase
  /-- `LEN` (R26). -/
  len : Word
  /-- `STATUS.DONE` (R27). -/
  done : Bool
  /-- `STATUS.ERRCODE` (R27, 60_exceptions.md R230). -/
  err : ErrCode
  /-- `STATUS.TABLES_READY` (R27). -/
  tablesReady : Bool
  /-- `OUT_PTR` (R29). -/
  outPtr : Word
  /-- `OUT_LEN` (R30). -/
  outLen : Word
  /-- `PAGES` (R31). -/
  pages : Word
  /-- `ET` (R35). -/
  et : EncTable
  /-- `DT` (R35). -/
  dt : DecTable
  /-- The byte region (R36). -/
  mem : Memory
  /-- `DATA` of the host's last read response (30_encoding.md R74). -/
  rdata : Word
  /-- MODEL'S OWN (log 4): the host's moves still to come, oldest first (R58 item 1). -/
  hostQueue : List HostMove
  /-- MODEL'S OWN (log 2): who moves when both agents can, for the unspecified completion time (R244, R269). -/
  turns : List Agent
  /-- MODEL'S OWN (log 5): how many free values have been drawn. -/
  draws : Nat
deriving DecidableEq, Repr

/-- The state reset leaves, for any parameters (10_state.md R40, 70_reset_and_hazards.md R260). The host's side is empty. -/
def State.powerOn (p : Params) : State :=
  { params := p
    phase := .idle
    len := 0#32
    done := false
    err := .none
    tablesReady := true
    outPtr := 0#32
    outLen := 0#32
    pages := p.initialPages
    et := buildEnc
    dt := buildDec buildEnc
    mem := []
    rdata := 0#32
    hostQueue := []
    turns := []
    draws := 0 }

/-- The machine right after reset, with the example parameters of R7 (log 1). -/
def State.reset : State := State.powerOn Config.setA

end Sys2Proof.Machine
end

