-- ==== Sys2Proof/Machine/Operands.lean ====
section
/-! DEFINITION. Operand assembly (30_encoding.md R73, R75), the layout of the region (20_memory.md R51), and the
exact arithmetic of lengths and projections (00_scope.md R11, 43_growth.md R191, R192). -/

namespace Sys2Proof.Machine

/-- `ceil(a / b)` (00_scope.md R11). -/
def divUp (a b : Nat) : Nat := (a + b - 1) / b

/-- Is the engine in phase `BUSY`? -/
def State.busy (s : State) : Bool :=
  match s.phase with
  | .idle => false
  | .busy _ _ => true

/-- The operand `len` of a command as an unbounded natural number (30_encoding.md R73): the value latched at
acceptance. In phase `IDLE`, where no step performs a command, it is the value acceptance would latch (log 8). -/
def State.operand (s : State) : Nat :=
  match s.phase with
  | .busy _ l => l.toNat
  | .idle => s.len.toNat

/-- The input base, `RESERVED_SIZE` (R73). -/
def State.inBase (s : State) : Nat := s.params.reservedSize.toNat

/-- The output base, `RESERVED_SIZE + len` (R73, 20_memory.md R51). -/
def State.outBase (s : State) : Nat := s.inBase + s.operand

/-- The region's size in bytes, `PAGES * PAGE_SIZE` (10_state.md R31). -/
def State.capacity (s : State) : Nat := s.pages.toNat * s.params.pageSize.toNat

/-- Register-offset decoding (30_encoding.md R75); every other offset is reserved (44_host_access.md R217). -/
def decodeReg (a : Word) : Option Reg :=
  match a.toNat with
  | 0x00 => some .cmd
  | 0x04 => some .len
  | 0x08 => some .status
  | 0x0C => some .inPtr
  | 0x10 => some .outPtr
  | 0x14 => some .outLen
  | 0x18 => some .pages
  | 0x1C => some .pageSize
  | 0x20 => some .maxPages
  | _ => none

/-- The offset of a register (10_state.md R24). -/
def regOffset : Reg → Word
  | .cmd => 0x00#32
  | .len => 0x04#32
  | .status => 0x08#32
  | .inPtr => 0x0C#32
  | .outPtr => 0x10#32
  | .outLen => 0x14#32
  | .pages => 0x18#32
  | .pageSize => 0x1C#32
  | .maxPages => 0x20#32

/-- Encoded length of `n` bytes, `8 * ceil(n / 5)` (41_encode.md R126). -/
def encLength (n : Nat) : Nat := 8 * divUp n 5

/-- Encode projection, `max(3n, n + 8 * ceil(n / 5))` (43_growth.md R191). -/
def projEnc (n : Nat) : Nat := max (3 * n) (n + encLength n)

/-- Decode projection, `2L` (R192). -/
def projDec (l : Nat) : Nat := 2 * l

end Sys2Proof.Machine
end

