-- ==== Sys2Proof/Machine/Flags.lean ====
section
/-! DEFINITION. The flags, all of them in `STATUS` (10_state.md R27, R34), and the two moments that write them:
acceptance (44_host_access.md R214) and completion (60_exceptions.md R244). -/

namespace Sys2Proof.Machine

/-- The 3-bit code of a result (60_exceptions.md R230). -/
def errBits : ErrCode → BitVec 3
  | .none => 0#3
  | .invalidLength => 1#3
  | .invalidCharacter => 2#3
  | .outOfMemory => 3#3
  | .illegalCommand => 4#3

/-- The `STATUS` word (10_state.md R27): `TABLES_READY` [8], `ERRCODE` [6:4], `DONE` [1], `BUSY` [0], all other bits 0. -/
def State.statusWord (s : State) : Word :=
  0#23 ++ BitVec.ofBool s.tablesReady ++ 0#1 ++ errBits s.err ++ 0#2 ++ BitVec.ofBool s.done ++ BitVec.ofBool s.busy

/-- `accept` (44_host_access.md R214) of a decoded command: the phase latches `op` and `LEN`, and `DONE` and `ERRCODE` are
cleared. -/
def State.acceptCommand (s : State) (op : Command) : State :=
  { s with phase := .busy op s.len, done := false, err := .none }

/-- `complete(code)` (60_exceptions.md R244). -/
def State.complete (s : State) (code : ErrCode) : State :=
  { s with phase := .idle, done := true, err := code }

end Sys2Proof.Machine
end

