-- ==== Sys2Proof/Machine/Ops.lean ====
section
/-! DEFINITION. The named operations on the region and the registers: memory, growth, the outcome of a failed
command (the analogue of taking an exception, 60_exceptions.md R237), command acceptance, read responses and reset. -/

namespace Sys2Proof.Machine

/-- The content of a location: a byte, or `none` for `UNWRITTEN` (10_state.md R36). -/
def Memory.read : Memory → Nat → Option Byte
  | [], _ => Memory.unlisted
  | (a, b) :: m, x => if x = a then some b else Memory.read m x

/-- `MemWrite(x, 1, v)` (00_scope.md R12), keeping the addresses rising. -/
def Memory.write : Memory → Nat → Byte → Memory
  | [], x, v => [(x, v)]
  | (a, b) :: m, x, v =>
    if x < a then (x, v) :: (a, b) :: m
    else if x = a then (x, v) :: m
    else (a, b) :: Memory.write m x v

/-- Write consecutive bytes from offset `x` on. -/
def Memory.writeBytes : Memory → Nat → List Byte → Memory
  | m, _, [] => m
  | m, x, v :: vs => Memory.writeBytes (m.write x v) (x + 1) vs

/-- Make the `n` locations from `x` on `UNWRITTEN`. -/
def Memory.clear (m : Memory) (x n : Nat) : Memory :=
  m.filter (fun c => !(decide (x ≤ c.1) && decide (c.1 < x + n)))

/-- Read `n` consecutive bytes from offset `x` on; `none` if one of them is `UNWRITTEN`. -/
def Memory.readBytes (m : Memory) : Nat → Nat → Option (List Byte)
  | _, 0 => some []
  | x, n + 1 =>
    match m.read x, Memory.readBytes m (x + 1) n with
    | some b, some bs => some (b :: bs)
    | _, _ => none

/-- `need` of the growth step, `ceil((RESERVED_SIZE + proj) / PAGE_SIZE)` (43_growth.md R190). -/
def State.pagesNeeded (s : State) (proj : Nat) : Nat :=
  divUp (s.params.reservedSize.toNat + proj) s.params.pageSize.toNat

/-- The region grown to `need` pages: the locations from the old capacity up to the new one are `UNWRITTEN` (R190, R198). -/
def State.growTo (s : State) (need : Nat) : State :=
  { s with
    pages := BitVec.ofNat 32 need
    mem := s.mem.clear s.capacity (need * s.params.pageSize.toNat - s.capacity) }

/-- `grow(proj)` (43_growth.md R190); `none` is `raise OutOfMemory`, which changes nothing (R196). -/
def State.grow (s : State) (proj : Nat) : Option State :=
  if s.pagesNeeded proj ≤ s.pages.toNat then some s
  else if s.params.maxPages.toNat < s.pagesNeeded proj then none
  else some (s.growTo (s.pagesNeeded proj))

/-- The input bytes of a command, `RESERVED_SIZE .. RESERVED_SIZE + len - 1`; `none` if one is `UNWRITTEN` (20_memory.md R65). -/
def State.readInput (s : State) : Option (List Byte) :=
  s.mem.readBytes s.inBase s.operand

/-- Write the output registers (10_state.md R29, R30). -/
def State.setOutput (s : State) (ptr len : Word) : State :=
  { s with outPtr := ptr, outLen := len }

/-- Replace the region's contents. -/
def State.setMem (s : State) (m : Memory) : State :=
  { s with mem := m }

/-- Replace both tables (40_tables.md R104). -/
def State.setTables (s : State) (et : EncTable) (dt : DecTable) : State :=
  { s with et := et, dt := dt }

/-- Write `LEN` (44_host_access.md R211). -/
def State.setLen (s : State) (d : Word) : State :=
  { s with len := d }

/-- Replace the host's moves and the schedule (log 2, log 4). -/
def State.withHost (s : State) (q : List HostMove) (ts : List Agent) : State :=
  { s with hostQueue := q, turns := ts }

/-- A failed `ENCODE` or `DECODE` (60_exceptions.md R237): no result is returned and the command completes with its code. -/
def State.failCodec (s : State) (code : ErrCode) : State :=
  (s.setOutput 0#32 0#32).complete code

/-- A successful `ENCODE` or `DECODE`: the output bytes from the output base on, the output registers, completion
with code 0 (41_encode.md R120, R128, 42_decode.md R150, R162). -/
def State.succeedCodec (s : State) (out : List Byte) : State :=
  (((s.setMem (s.mem.writeBytes s.outBase out)).setOutput (BitVec.ofNat 32 s.outBase) (BitVec.ofNat 32 out.length))).complete .none

/-- The response of a host read (30_encoding.md R74). -/
def State.respond (s : State) (v : Word) : State :=
  { s with rdata := v }

/-- "any byte", drawn afresh (44_host_access.md R212): bits [31:8] of the response are 0. -/
def State.respondFreeByte (s : State) : State :=
  { s with rdata := (Config.freeByte s.draws).setWidth 32, draws := s.draws + 1 }

/-- "any 32-bit value", drawn afresh (R210, 70_reset_and_hazards.md R266). -/
def State.respondFreeWord (s : State) : State :=
  { s with rdata := Config.freeWord s.draws, draws := s.draws + 1 }

/-- The value of a register as the host reads it in phase `IDLE` (10_state.md R24 to R33). -/
def State.regValue (s : State) : Reg → Word
  | .cmd => 0#32
  | .len => s.len
  | .status => s.statusWord
  | .inPtr => s.params.reservedSize
  | .outPtr => s.outPtr
  | .outLen => s.outLen
  | .pages => s.pages
  | .pageSize => s.params.pageSize
  | .maxPages => s.params.maxPages

/-- Is the register's value unspecified while `BUSY` (70_reset_and_hazards.md R266)? -/
def unspecifiedWhileBusy : Reg → Bool
  | .cmd => false
  | .len => false
  | .status => false
  | .inPtr => false
  | .outPtr => true
  | .outLen => true
  | .pages => true
  | .pageSize => false
  | .maxPages => false

/-- Reset (70_reset_and_hazards.md R260, R261), in either phase: all of the block goes to its reset values. The
parameters are the block's own; the host's side of the bus (its moves, the schedule, the last response, the count of
draws) is not the block's and stays. -/
def State.hardReset (s : State) : State :=
  { State.powerOn s.params with
    rdata := s.rdata
    hostQueue := s.hostQueue
    turns := s.turns
    draws := s.draws }

end Sys2Proof.Machine
end

