-- ==== Sys2Proof/Machine/BuildTables.lean ====
section
/-! DEFINITION. `BUILD_TABLES` (40_tables.md R104) and the completion of a reserved command word (30_encoding.md R72). -/

namespace Sys2Proof.Machine

/-- `BUILD_TABLES` (40_tables.md R104): every entry of both tables is written; it cannot fail. -/
def execBuildTables (s : State) : Host.Outcome State Fault Refusal :=
  .next ((s.setTables buildEnc (buildDec buildEnc)).complete .none)

/-- `ILLEGAL` (30_encoding.md R72, 60_exceptions.md R234): completes with code 4 and changes no other state. -/
def execIllegal (_w : Word) (s : State) : Host.Outcome State Fault Refusal :=
  .next (s.complete .illegalCommand)

end Sys2Proof.Machine
end

