-- ==== Sys2Proof/Machine/Encoder.lean ====
section
/-! DEFINITION. `ENCODE` (41_encode.md R120 to R129). -/

namespace Sys2Proof.Machine

/-- The padding character `'='` (00_scope.md R10). -/
def padChar : Byte := 0x3D#8

/-- The 40-bit value of up to five bytes, the first most significant, missing bytes zero (20_memory.md R53, 41_encode.md R123). -/
def groupOfBytes (bs : List Byte) : Group :=
  bs.getD 0 0#8 ++ bs.getD 1 0#8 ++ bs.getD 2 0#8 ++ bs.getD 3 0#8 ++ bs.getD 4 0#8

/-- The 5-bit window `v[39-5k : 35-5k]` (R122). -/
def window (v : Group) (k : Nat) : Quint := v.extractLsb' (35 - 5 * k) 5

/-- `CHARS(r)`, the padding table (R124). -/
def charsOf : Nat → Nat
  | 1 => 2
  | 2 => 4
  | 3 => 5
  | 4 => 7
  | _ => 8

/-- One group: `c` characters from the windows, then `'='` up to 8 (R122, R123). -/
def packGroup (et : EncTable) (c : Nat) (bs : List Byte) : List Byte :=
  (List.range c).map (fun k => encLookup et (window (groupOfBytes bs) k)) ++ List.replicate (8 - c) padChar

/-- The full groups, in increasing offset order (R121). -/
def packFull (et : EncTable) : Nat → List Byte → List Byte
  | 0, _ => []
  | g + 1, bs => packGroup et 8 (bs.take 5) ++ packFull et g (bs.drop 5)

/-- The output characters of an input: the full groups, then the final partial group if there is one (R120, R121, R123). -/
def encodeBytes (et : EncTable) (bs : List Byte) : List Byte :=
  packFull et (bs.length / 5) bs ++
    if bs.length % 5 = 0 then []
    else packGroup et (charsOf (bs.length % 5)) (bs.drop (5 * (bs.length / 5)))

/-- `ENCODE` (41_encode.md R120): growth first, then the input check, then the packing; it fails only with `OutOfMemory`. -/
def execEncode (s : State) : Host.Outcome State Fault Refusal :=
  match s.grow (projEnc s.operand) with
  | none => .next (s.failCodec .outOfMemory)
  | some t =>
    match t.readInput with
    | none => .fault .unwrittenInput
    | some bs => .next (t.succeedCodec (encodeBytes t.et bs))

end Sys2Proof.Machine
end

