-- ==== Sys2Proof/Machine/Decoder.lean ====
section
/-! DEFINITION. `DECODE` (42_decode.md R150 to R164). -/

namespace Sys2Proof.Machine

/-- `padrun`: the length of the trailing run of `'='` in a group (R152). -/
def padRun (cs : List Byte) : Nat :=
  (cs.reverse.takeWhile (fun c => c == padChar)).length

/-- The legal padding runs (R153). -/
def legalRun (p : Nat) : Bool :=
  p == 0 || p == 1 || p == 3 || p == 4 || p == 6

/-- The decode-table values of characters; `none` if one is `INVALID` (R154). -/
def lookupAll (dt : DecTable) : List Byte → Option (List Quint)
  | [] => some []
  | c :: cs =>
    match decLookup dt c, lookupAll dt cs with
    | some v, some vs => some (v :: vs)
    | _, _ => none

/-- The 40-bit value of up to eight 5-bit values, the first most significant, the rest zero (R156). -/
def groupOfQuints (vs : List Quint) : Group :=
  vs.getD 0 0#5 ++ vs.getD 1 0#5 ++ vs.getD 2 0#5 ++ vs.getD 3 0#5 ++ vs.getD 4 0#5 ++ vs.getD 5 0#5 ++ vs.getD 6 0#5 ++
    vs.getD 7 0#5

/-- `BYTES(d) = (5d) div 8` (R156). -/
def bytesOf (d : Nat) : Nat := 5 * d / 8

/-- The first `b` bytes of a 40-bit value, `v[39-8j : 32-8j]` (R150, R156). -/
def emitBytes (v : Group) (b : Nat) : List Byte :=
  (List.range b).map (fun j => v.extractLsb' (32 - 8 * j) 8)

/-- One group of eight characters: its bytes, or `none` for `InvalidCharacter` (R153, R154, R155, R156). `last` says
whether the group is the final one. -/
def unpackGroup (dt : DecTable) (last : Bool) (cs : List Byte) : Option (List Byte) :=
  if !legalRun (padRun cs) then none
  else if padRun cs ≠ 0 ∧ last = false then none
  else
    match lookupAll dt (cs.take (8 - padRun cs)) with
    | none => none
    | some vs => some (emitBytes (groupOfQuints vs) (bytesOf (8 - padRun cs)))

/-- `g` groups in increasing offset order (R152); `none` for `InvalidCharacter` in any of them (R160). -/
def unpackGroups (dt : DecTable) : Nat → List Byte → Option (List Byte)
  | 0, _ => some []
  | g + 1, cs =>
    match unpackGroup dt (g == 0) (cs.take 8), unpackGroups dt g (cs.drop 8) with
    | some b, some bs => some (b ++ bs)
    | _, _ => none

/-- The output bytes of an input whose length is a multiple of 8, or `none` for `InvalidCharacter` (R150). -/
def decodeChars (dt : DecTable) (cs : List Byte) : Option (List Byte) :=
  unpackGroups dt (cs.length / 8) cs

/-- The most a `DECODE` of `l` characters can write (R160). -/
def decodeReach (l : Nat) : Nat := 5 * (l / 8)

/-- `DECODE` (42_decode.md R150), with the checks in the order of 60_exceptions.md R236. -/
def execDecode (s : State) : Host.Outcome State Fault Refusal :=
  if s.operand % 8 ≠ 0 then .next (s.failCodec .invalidLength)
  else
    match s.grow (projDec s.operand) with
    | none => .next (s.failCodec .outOfMemory)
    | some t =>
      match t.readInput with
      | none => .fault .unwrittenInput
      | some cs =>
        match decodeChars t.dt cs with
        | none => .next ((t.setMem (t.mem.clear t.outBase (decodeReach t.operand))).failCodec .invalidCharacter)
        | some out => .next (t.succeedCodec out)

end Sys2Proof.Machine
end

