-- ==== Sys2Proof/Machine/Growth.lean ====
section
/-! DEFINITION. `PREP_ENCODE` and `PREP_DECODE` (43_growth.md R193, R194): the growth step alone. -/

namespace Sys2Proof.Machine

/-- Grow for a projection and complete, with code 0 or `OutOfMemory` (R193, R194). -/
def growAndComplete (s : State) (proj : Nat) : Host.Outcome State Fault Refusal :=
  match s.grow proj with
  | none => .next (s.complete .outOfMemory)
  | some t => .next (t.complete .none)

/-- `PREP_ENCODE` (43_growth.md R193). -/
def execPrepEncode (s : State) : Host.Outcome State Fault Refusal :=
  growAndComplete s (projEnc s.operand)

/-- `PREP_DECODE` (43_growth.md R194): the length is not checked. -/
def execPrepDecode (s : State) : Host.Outcome State Fault Refusal :=
  growAndComplete s (projDec s.operand)

end Sys2Proof.Machine
end

