-- ==== Sys2Proof/WellFormed.lean ====
section
/-! DEFINITION. Which terms of `Instr` stand for an encoded instruction. Only `illegal` carries a
constraint: its word is a reserved command word (30_encoding.md R72). Register and region offsets are
any 32-bit value (R74); what an offset does is the meaning's matter (44_host_access.md R210 to R217). -/

namespace Sys2Proof

/-- A reserved command word: `OP` is 0x0 or 0x6..0xF, or `RSVD` is nonzero (30_encoding.md R72). -/
def reservedWord (w : Word) : Bool :=
  w.extractLsb' 4 28 != 0#28 || w.extractLsb' 0 4 == 0#4 || (6#4).ule (w.extractLsb' 0 4)

/-- The check on syntax: an `illegal` carries a reserved word. -/
def Instr.wellFormed : Instr → Bool
  | .buildTables => true
  | .prepEncode => true
  | .prepDecode => true
  | .encode => true
  | .decode => true
  | .illegal w => reservedWord w
  | .regRd _ => true
  | .regWr _ _ => true
  | .memRd _ => true
  | .memWr _ _ => true

end Sys2Proof
end

