-- ==== Sys2Proof/Decode.lean ====
section
/-! DEFINITION. The decoder of command words (30_encoding.md R70 to R72) and of bus transactions (R74),
and after it the encoder, written from the same tables. -/

namespace Sys2Proof

/-- `decode_cmd` of 30_encoding.md R72: total on the 2^32 words. -/
def decodeCommand (w : Word) : Command :=
  if w.extractLsb' 4 28 ≠ 0#28 then .illegal
  else match (w.extractLsb' 0 4).toNat with
    | 1 => .buildTables
    | 2 => .prepEncode
    | 3 => .prepDecode
    | 4 => .encode
    | 5 => .decode
    | _ => .illegal

/-- The instruction a latched command stands for. A latched `ILLEGAL` no longer holds the word it came
from (10_state.md R39: the hidden state is `op` and `len`); the word given here is the reserved word 0, and the
meaning does not read it. -/
def Command.instr : Command → Instr
  | .buildTables => .buildTables
  | .prepEncode => .prepEncode
  | .prepDecode => .prepDecode
  | .encode => .encode
  | .decode => .decode
  | .illegal => .illegal 0#32

/-- The instruction a command word encodes (R71, R72). -/
def decodeWord (w : Word) : Instr :=
  match decodeCommand w with
  | .illegal => .illegal w
  | c => c.instr

/-- The instruction a bus transaction encodes (R74): every value of `KIND` is defined. -/
def decodeTxn (t : Txn) : Instr :=
  match t.kind.toNat with
  | 0 => .regRd t.addr
  | 1 => .regWr t.addr t.data
  | 2 => .memRd t.addr
  | _ => .memWr t.addr t.data

/-- The decoder on both formats. -/
def decode : Frame → Instr
  | .cmdw w => decodeWord w
  | .hbus t => decodeTxn t

/-- Why a string of bits is no encoding of the block. -/
inductive DecodeError where
  /-- No bits at all. -/
  | noBits
  /-- More bits than the longest encoding, a bus transaction in 9 bytes. -/
  | tooLong
  /-- The value has a bit at or above the stated number of bits. -/
  | valueTooWide
  /-- A bit set above the 66 bits of a bus transaction. -/
  | strayBits
deriving DecidableEq, Repr

/-- The encoded form that a string of `nbits` bits of value `w` is. 32 bits are a command word (R70: commands
have exactly one length). Any other length up to 72 is a bus transaction with `KIND` in bits [1:0] (as
opcode_table.json numbers it), `ADDR` in [33:2] and `DATA` in [65:34], missing bits zero. DESIGN CHOICE
(log 6): R74 gives the triple and its widths, not a packing. -/
def frameOf (nbits w : Nat) : Except DecodeError Frame :=
  if nbits = 0 then .error .noBits
  else if 72 < nbits then .error .tooLong
  else if 2 ^ nbits ≤ w then .error .valueTooWide
  else if nbits = 32 then .ok (.cmdw (BitVec.ofNat 32 w))
  else if 2 ^ 66 ≤ w then .error .strayBits
  else .ok (.hbus { kind := BitVec.ofNat 2 w, addr := BitVec.ofNat 32 (w / 2 ^ 2), data := BitVec.ofNat 32 (w / 2 ^ 34) })

/-- The decoder on bits, rejecting by name. -/
def decodeBits (nbits w : Nat) : Except DecodeError Instr :=
  match frameOf nbits w with
  | .ok f => .ok (decode f)
  | .error e => .error e

/-- The decoder on a row of opcode_table.json: a `CMDW` row has 32 bits, an `HBUS` row's `KIND` fits one byte. -/
def decodeTableWord (nbits w : Nat) : Option Instr :=
  match decodeBits nbits w with
  | .ok i => some i
  | .error _ => none

/-- The opcode of a command (30_encoding.md R71). `ILLEGAL` has no word of its own; 0x0 is the first reserved one. -/
def Command.word : Command → Word
  | .buildTables => 0x00000001#32
  | .prepEncode => 0x00000002#32
  | .prepDecode => 0x00000003#32
  | .encode => 0x00000004#32
  | .decode => 0x00000005#32
  | .illegal => 0x00000000#32

/-- The encoder (R71, R74). A read's `DATA` is its response, so a read is issued with `DATA = 0`. -/
def encode : Instr → Frame
  | .buildTables => .cmdw Command.buildTables.word
  | .prepEncode => .cmdw Command.prepEncode.word
  | .prepDecode => .cmdw Command.prepDecode.word
  | .encode => .cmdw Command.encode.word
  | .decode => .cmdw Command.decode.word
  | .illegal w => .cmdw w
  | .regRd a => .hbus { kind := 0b00#2, addr := a, data := 0#32 }
  | .regWr a d => .hbus { kind := 0b01#2, addr := a, data := d }
  | .memRd a => .hbus { kind := 0b10#2, addr := a, data := 0#32 }
  | .memWr a d => .hbus { kind := 0b11#2, addr := a, data := d }

/-- How many bits an encoded form has, in whole bytes. -/
def Frame.nbits : Frame → Nat
  | .cmdw _ => 32
  | .hbus _ => 72

/-- An encoded form as one number, numbered as `frameOf` reads it. -/
def Frame.bits : Frame → Nat
  | .cmdw w => w.toNat
  | .hbus t => t.kind.toNat + 2 ^ 2 * t.addr.toNat + 2 ^ 34 * t.data.toNat

end Sys2Proof
end

