-- ==== Sys2Proof/Machine/HostBus.lean ====
section
/-! DEFINITION. The four host bus transactions (44_host_access.md R210 to R217). -/

namespace Sys2Proof.Machine

/-- `REG_RD` (44_host_access.md R210). -/
def execRegRd (a : Word) (s : State) : Host.Outcome State Fault Refusal :=
  match decodeReg a with
  | none => .fault .reservedRegister
  | some r => .next (if s.busy && unspecifiedWhileBusy r then s.respondFreeWord else s.respond (s.regValue r))

/-- `REG_WR` (44_host_access.md R211): `CMD` issues a command (R214), `LEN` is written, every other register ignores the
write (R216). -/
def execRegWr (a d : Word) (s : State) : Host.Outcome State Fault Refusal :=
  match decodeReg a with
  | none => .fault .reservedRegister
  | some .cmd => if s.busy then .fault .commandWhileBusy else .next (s.acceptCommand (decodeCommand d))
  | some .len => if s.busy then .fault .lenWriteWhileBusy else .next (s.setLen d)
  | some .status => .next s
  | some .inPtr => .next s
  | some .outPtr => .next s
  | some .outLen => .next s
  | some .pages => .next s
  | some .pageSize => .next s
  | some .maxPages => .next s

/-- `MEM_RD` (44_host_access.md R212). -/
def execMemRd (a : Word) (s : State) : Host.Outcome State Fault Refusal :=
  if s.capacity ≤ a.toNat then .fault .outOfBounds
  else if s.busy then .next s.respondFreeByte
  else if a.toNat < s.inBase then .next s.respondFreeByte
  else
    match s.mem.read a.toNat with
    | none => .next s.respondFreeByte
    | some b => .next (s.respond (b.setWidth 32))

/-- `MEM_WR` (44_host_access.md R213): only `DATA[7:0]` counts. The checks stand in the order of R213 (DEDUCED, log 10). -/
def execMemWr (a d : Word) (s : State) : Host.Outcome State Fault Refusal :=
  if s.capacity ≤ a.toNat then .fault .outOfBounds
  else if s.busy then .fault .memWriteWhileBusy
  else if a.toNat < s.inBase then .fault .headerWrite
  else .next (s.setMem (s.mem.write a.toNat (d.extractLsb' 0 8)))

end Sys2Proof.Machine
end

