-- ==== Sys2Proof/Machine/Dispatch.lean ====
section
/-! DEFINITION. One arm per constructor of `Instr`. A command's arm is the engine's completion step of that command
(60_exceptions.md R244), a transaction's arm the host's transaction (44_host_access.md). -/

namespace Sys2Proof.Machine

def exec (i : Instr) (s : State) : Host.Outcome State Fault Refusal :=
  match i with
  | .buildTables => Sys2Proof.Machine.execBuildTables s
  | .prepEncode => Sys2Proof.Machine.execPrepEncode s
  | .prepDecode => Sys2Proof.Machine.execPrepDecode s
  | .encode => Sys2Proof.Machine.execEncode s
  | .decode => Sys2Proof.Machine.execDecode s
  | .illegal w => Sys2Proof.Machine.execIllegal w s
  | .regRd a => Sys2Proof.Machine.execRegRd a s
  | .regWr a d => Sys2Proof.Machine.execRegWr a d s
  | .memRd a => Sys2Proof.Machine.execMemRd a s
  | .memWr a d => Sys2Proof.Machine.execMemWr a d s

end Sys2Proof.Machine
end

