-- ==== Sys2Proof/Machine/Schedule.lean ====
section
/-! DEFINITION. Which agent moves next and what it does (10_state.md R20, R23): the block's fetch. The engine can move in
phase `BUSY`, the host while it has moves left. Where both can, `turns` says who does (log 2). -/

namespace Sys2Proof.Machine

/-- What the next step does. -/
inductive Fetch where
  /-- Neither agent can move: the engine is `IDLE` and the host has nothing to do. -/
  | waiting
  /-- The instruction `i` runs in the state `s`. -/
  | run (i : Instr) (s : State)
  /-- The host's move has no meaning. -/
  | fault (r : Fault)
  /-- The block is reset. -/
  | restart (s : State)
deriving DecidableEq, Repr

/-- The host makes the move `m`; `rest` are the moves after it and `ts` the turns left. A `wait` (30_encoding.md R77) is a `REG_RD` of
`STATUS`, and stays at the head of the host's moves while bit 0 of the word read is 1. -/
def hostFetch (m : HostMove) (rest : List HostMove) (ts : List Agent) (s : State) : Fetch :=
  match m with
  | .bus t => .run (decodeTxn t) (s.withHost rest ts)
  | .regOtherWidth => .fault .reservedRegister
  | .wait => .run (.regRd (regOffset .status)) (s.withHost (if s.statusWord.getLsbD 0 then .wait :: rest else rest) ts)
  | .reset => .restart (s.withHost rest ts).hardReset

/-- The next move. A turn is spent only where both agents could move. When no turns are left the engine goes first, so an
accepted command completes after finitely many steps (60_exceptions.md R244). -/
def State.fetch (s : State) : Fetch :=
  match s.phase, s.hostQueue, s.turns with
  | .idle, [], _ => .waiting
  | .idle, m :: rest, ts => hostFetch m rest ts s
  | .busy op _, [], _ => .run op.instr s
  | .busy op _, _ :: _, [] => .run op.instr s
  | .busy op _, q, .engine :: ts => .run op.instr (s.withHost q ts)
  | .busy _ _, m :: rest, .host :: ts => hostFetch m rest ts s

/-- The command of `w` placed where the engine finds its next command: in the phase, as acceptance leaves it (44_host_access.md
R214), with the engine to move. -/
def State.placeCommand (s : State) (w : Word) : State :=
  match s.hostQueue with
  | [] => s.acceptCommand (decodeCommand w)
  | q => (s.acceptCommand (decodeCommand w)).withHost q (.engine :: s.turns)

/-- The transaction `t` placed where the host finds its next move, with the host to move. -/
def State.placeTxn (s : State) (t : Txn) : State :=
  match s.phase with
  | .idle => s.withHost (.bus t :: s.hostQueue) s.turns
  | .busy _ _ => s.withHost (.bus t :: s.hostQueue) (.host :: s.turns)

end Sys2Proof.Machine
end

