-- ==== Sys2Proof/Machine/Step.lean ====
section
/-! DEFINITION. One step of the block: one host move, or the completion of the accepted command (60_exceptions.md R244,
70_reset_and_hazards.md R269; log 12). -/

namespace Sys2Proof.Machine

/-- One step. With nothing to do the block waits for a `CMD` write (R261). -/
def step (s : State) : Host.Outcome State Fault Refusal :=
  match s.fetch with
  | .waiting => .next s
  | .run i t => exec i t
  | .fault r => .fault r
  | .restart t => .next t

/-- The state `s` with an encoded instruction placed where `step` takes its next one: a command word in the engine's
phase, a bus transaction at the head of the host's moves (log 4). Bits that are no encoding change nothing. -/
def State.withFetchWord (s : State) (nbits w : Nat) : State :=
  match frameOf nbits w with
  | .ok (.cmdw c) => s.placeCommand c
  | .ok (.hbus t) => s.placeTxn t
  | .error _ => s

end Sys2Proof.Machine
end

