-- ==== Sys2Proof/Safety.lean ====
section
/-! DEFINITION. What the claims are stated in: the machine's invariant, and the terms in which statements speak of an
outcome and of a codec's input and output. -/

namespace Sys2Proof.Machine

/-- The invariant of the block: what reset leaves and every step keeps. -/
structure State.Inv (s : State) : Prop where
  /-- The parameters meet 00_scope.md R7. -/
  params_valid : s.params.Valid
  /-- The region never falls below its reset size (43_growth.md R195) nor passes the limit (R196). -/
  pages_ge : s.params.initialPages.toNat ≤ s.pages.toNat
  pages_le : s.pages.toNat ≤ s.params.maxPages.toNat
  /-- The region's data is in canonical form. -/
  mem_wf : s.mem.wf
  /-- A location that holds a byte is above the header (20_memory.md R63) and inside the region (R62). -/
  mem_inside : ∀ c ∈ s.mem, s.inBase ≤ c.1 ∧ c.1 < s.capacity
  /-- The tables hold the contents of 40_tables.md R100 and R101 (R105, R106). -/
  et_built : s.et = buildEnc
  dt_built : s.dt = buildDec buildEnc
  ready : s.tablesReady = true
  /-- While `BUSY`, `DONE` is 0 (10_state.md R27). -/
  busy_not_done : s.busy = true → s.done = false
  /-- A result code stands only beside `DONE` (R27). -/
  code_done : s.done = false → s.err = .none
  /-- The last output lies inside the region (41_encode.md R128, 42_decode.md R162). -/
  out_inside : s.outPtr.toNat + s.outLen.toNat ≤ s.capacity

/-- The content of a location of the region (10_state.md R36). -/
def State.byteAt (s : State) (a : Nat) : Option Byte := s.mem.read a

/-- Is the instruction one of the host's bus transactions (30_encoding.md R74), not a command of the engine? -/
def isTransaction : Instr → Bool
  | .buildTables => false
  | .prepEncode => false
  | .prepDecode => false
  | .encode => false
  | .decode => false
  | .illegal _ => false
  | .regRd _ => true
  | .regWr _ _ => true
  | .memRd _ => true
  | .memWr _ _ => true

/-- What no command of the engine but `BUILD_TABLES` writes: the parameters, `LEN`, `TABLES_READY`, the tables, and the host's
side of the bus. -/
structure SameButCodec (s t : State) : Prop where
  params : t.params = s.params
  len : t.len = s.len
  tablesReady : t.tablesReady = s.tablesReady
  et : t.et = s.et
  dt : t.dt = s.dt
  rdata : t.rdata = s.rdata
  hostQueue : t.hostQueue = s.hostQueue
  turns : t.turns = s.turns
  draws : t.draws = s.draws

/-- The engine has completed a command with a result code (60_exceptions.md R244). -/
structure Completed (t : State) (code : ErrCode) : Prop where
  phase : t.phase = .idle
  done : t.done = true
  err : t.err = code

/-- The tables hold the contents of 40_tables.md R100 and R101, written as those rules write them. -/
structure TablesHold (et : EncTable) (dt : DecTable) : Prop where
  upper : ∀ v : Quint, v.toNat ≤ 25 → encLookup et v = BitVec.ofNat 8 (0x41 + v.toNat)
  digit : ∀ v : Quint, 26 ≤ v.toNat → encLookup et v = BitVec.ofNat 8 (0x32 + (v.toNat - 26))
  fromDigit : ∀ c : Byte, 0x32 ≤ c.toNat → c.toNat ≤ 0x37 → decLookup dt c = some (BitVec.ofNat 5 (c.toNat - 0x32 + 26))
  fromUpper : ∀ c : Byte, 0x41 ≤ c.toNat → c.toNat ≤ 0x5A → decLookup dt c = some (BitVec.ofNat 5 (c.toNat - 0x41))
  fromLower : ∀ c : Byte, 0x61 ≤ c.toNat → c.toNat ≤ 0x7A → decLookup dt c = some (BitVec.ofNat 5 (c.toNat - 0x61))
  invalid : ∀ c : Byte, c.toNat ≤ 0x31 ∨ (0x38 ≤ c.toNat ∧ c.toNat ≤ 0x40) ∨ (0x5B ≤ c.toNat ∧ c.toNat ≤ 0x60) ∨
    0x7B ≤ c.toNat → decLookup dt c = none

/-- Bit `x` of the stream of `n` bytes, increasing offset order, each byte's bit 7 first, zeros after the end (20_memory.md R53,
41_encode.md R123). -/
def byteStreamBit (b : Nat → Byte) (n x : Nat) : Bool :=
  decide (x / 8 < n) && (b (x / 8)).getLsbD (7 - x % 8)

/-- Bit `x` of the stream of 5-bit values, increasing offset order, each value's bit 4 first (20_memory.md R53). -/
def quintStreamBit (q : Nat → Quint) (x : Nat) : Bool :=
  (q (x / 5)).getLsbD (4 - x % 5)

/-- The input area of a command holds the bytes `b 0`, `b 1`, … (20_memory.md R51). -/
def State.InputIs (s : State) (n : Nat) (b : Nat → Byte) : Prop :=
  ∀ i, i < n → s.byteAt (s.inBase + i) = some (b i)

/-- The growth step of a projection does not fail (43_growth.md R190). -/
def State.Fits (s : State) (proj : Nat) : Prop :=
  s.pagesNeeded proj ≤ s.params.maxPages.toNat

end Sys2Proof.Machine
end

