-- ==== Sys2Proof/Certificates/Slice0/Obligations.lean ====
section
/-! DEFINITION. The statements for the provers. Each docstring names the rules of spec/ the statement formalises. Statements about
a command take the phase `BUSY(op, n)` that the engine completes it in (10_state.md R23, 60_exceptions.md R244). -/

open Sys2Proof Sys2Proof.Machine

/-! ## Reset and the invariant -/

/-- 10_state.md R40: what reset leaves, for every parameter set. -/
def Obligations.ResetLeavesTheListedValues : Prop :=
  ∀ p : Params,
    (State.powerOn p).phase = .idle ∧
    (State.powerOn p).len = 0#32 ∧
    (State.powerOn p).statusWord = 0x00000100#32 ∧
    (State.powerOn p).busy = false ∧
    (State.powerOn p).done = false ∧
    (State.powerOn p).err = .none ∧
    (State.powerOn p).tablesReady = true ∧
    (State.powerOn p).regValue .inPtr = p.reservedSize ∧
    (State.powerOn p).outPtr = 0#32 ∧
    (State.powerOn p).outLen = 0#32 ∧
    (State.powerOn p).pages = p.initialPages ∧
    (State.powerOn p).regValue .pageSize = p.pageSize ∧
    (State.powerOn p).regValue .maxPages = p.maxPages ∧
    TablesHold (State.powerOn p).et (State.powerOn p).dt ∧
    ∀ a, (State.powerOn p).byteAt a = none

/-- 70_reset_and_hazards.md R260 and R261, delivered as the model delivers it (a host move, log 4): a reset in either phase
abandons whatever ran and leaves the values of R40. -/
def Obligations.ResetAbandonsTheCommand : Prop :=
  ∀ (s : State) (rest : List HostMove), s.hostQueue = .reset :: rest →
    (s.phase = .idle ∨ ∃ op l ts, s.phase = .busy op l ∧ s.turns = .host :: ts) →
    ∃ t, step s = .next t ∧ t.params = s.params ∧ t.phase = .idle ∧ t.len = 0#32 ∧ t.statusWord = 0x00000100#32 ∧
      t.outPtr = 0#32 ∧ t.outLen = 0#32 ∧ t.pages = s.params.initialPages ∧ TablesHold t.et t.dt ∧
      (∀ a, t.byteAt a = none) ∧ t.hostQueue = rest

/-- The invariant holds right after reset, for all parameters R7 allows, and for the set `State.reset` takes (log 1). -/
def Obligations.ResetMeetsTheInvariant : Prop :=
  (∀ p : Params, p.Valid → (State.powerOn p).Inv) ∧ State.reset.Inv

/-- Every step from a state that meets the invariant leads to one that meets it: the region stays canonical, above the header
and inside the capacity, the tables stay built, `PAGES` stays within its limits, and the last output stays inside the region
(43_growth.md R195, R197, 40_tables.md R105, 10_state.md R27, 20_memory.md R62, R63). -/
def Obligations.EveryStepKeepsTheInvariant : Prop :=
  ∀ s t : State, s.Inv → step s = .next t → t.Inv

/-! ## Steps -/

/-- What a step runs (10_state.md R20, R23, 60_exceptions.md R244): nothing when neither agent can move, the latched command when the
engine moves, the decoded transaction when the host moves, each with the move taken off the host's moves and the turn spent. Who
moves is the model's schedule (log 2), and the host's moves stand in the state by the model's choice (log 4). -/
def Obligations.StepRunsTheAgentToMove : Prop :=
  ∀ s : State,
    (s.phase = .idle → s.hostQueue = [] → step s = .next s) ∧
    (∀ x rest, s.phase = .idle → s.hostQueue = .bus x :: rest →
      step s = exec (decode (.hbus x)) (s.withHost rest s.turns)) ∧
    (∀ op l, s.phase = .busy op l → s.hostQueue = [] ∨ s.turns = [] → step s = exec op.instr s) ∧
    (∀ op l m rest ts, s.phase = .busy op l → s.hostQueue = m :: rest → s.turns = .engine :: ts →
      step s = exec op.instr (s.withHost s.hostQueue ts)) ∧
    (∀ op l x rest ts, s.phase = .busy op l → s.hostQueue = .bus x :: rest → s.turns = .host :: ts →
      step s = exec (decode (.hbus x)) (s.withHost rest ts))

/-- The bits placed where the step takes its next instruction are the instruction it runs: if they decode to `i`, the step is
`exec i`, for a command word in the state its acceptance leaves (44_host_access.md R214). Where the bits are placed, with the turn
that runs them next, and how a transaction is packed into bits are the model's choices (log 4, log 2, log 6). -/
def Obligations.StepRunsThePlacedInstruction : Prop :=
  ∀ (s : State) (nbits w : Nat) (i : Instr), decodeTableWord nbits w = some i →
    step (s.withFetchWord nbits w) =
      exec i (if nbits = 32 then s.acceptCommand (decodeCommand (BitVec.ofNat 32 w)) else s)

/-- `wait` (30_encoding.md R77) polls `STATUS` and stays while bit 0 is 1, and a register access of another width faults
(44_host_access.md R217), each in phase `IDLE` and in phase `BUSY` with the host to move. That these are host moves held in the state,
and whose turn it is, are the model's choices (log 4, log 2). -/
def Obligations.WaitPollsUntilIdle : Prop :=
  ∀ (s : State) (rest : List HostMove),
    (s.phase = .idle → s.hostQueue = .wait :: rest →
      step s = .next ((s.withHost rest s.turns).respond s.statusWord)) ∧
    (∀ op l ts, s.phase = .busy op l → s.hostQueue = .wait :: rest → s.turns = .host :: ts →
      step s = .next ((s.withHost (.wait :: rest) ts).respond s.statusWord)) ∧
    (s.phase = .idle → s.hostQueue = .regOtherWidth :: rest → step s = .fault .reservedRegister) ∧
    (∀ op l ts, s.phase = .busy op l → s.hostQueue = .regOtherWidth :: rest → s.turns = .host :: ts →
      step s = .fault .reservedRegister)

/-- 60_exceptions.md R244: an accepted command completes after finitely many steps, whatever the host does meanwhile, unless one of its
moves faults or resets the block (70_reset_and_hazards.md R261: then no completion is observed, and the block is in phase `IDLE` all
the same). The bound is the model's schedule (log 2). -/
def Obligations.EveryCommandCompletes : Prop :=
  ∀ (s : State) (op : Command) (l : Word), s.phase = .busy op l →
    ((∀ m ∈ s.hostQueue, m ≠ .reset) →
      ∃ k, k ≤ s.turns.length + 1 ∧
        ((∃ t, Sys2Proof.core.run k s = .next t ∧ State.phase t = .idle ∧ State.done t = true) ∨
          ∃ r, Sys2Proof.core.run k s = .fault r)) ∧
    ∃ k, k ≤ s.turns.length + 1 ∧
      ((∃ t, Sys2Proof.core.run k s = .next t ∧ State.phase t = .idle) ∨ ∃ r, Sys2Proof.core.run k s = .fault r)

/-! ## Encoding -/

/-- Words written out from 30_encoding.md R71 decode to what they stand for (vectors I1 to I7 of 95_test_vectors.md), and so does each
value of `KIND` (R74). That eight bits are a transaction with its missing bits zero is the model's choice (log 6). -/
def Obligations.SampleWordsDecode : Prop :=
  decodeTableWord 32 0x00000001 = some .buildTables ∧
  decodeTableWord 32 0x00000002 = some .prepEncode ∧
  decodeTableWord 32 0x00000003 = some .prepDecode ∧
  decodeTableWord 32 0x00000004 = some .encode ∧
  decodeTableWord 32 0x00000005 = some .decode ∧
  decodeTableWord 32 0x00000000 = some (.illegal 0x00000000#32) ∧
  decodeTableWord 32 0x00000006 = some (.illegal 0x00000006#32) ∧
  decodeTableWord 32 0x0000000F = some (.illegal 0x0000000F#32) ∧
  decodeTableWord 32 0x00000010 = some (.illegal 0x00000010#32) ∧
  decodeTableWord 32 0x00000014 = some (.illegal 0x00000014#32) ∧
  decodeTableWord 32 0x80000005 = some (.illegal 0x80000005#32) ∧
  decodeTableWord 8 0b00 = some (.regRd 0#32) ∧
  decodeTableWord 8 0b01 = some (.regWr 0#32 0#32) ∧
  decodeTableWord 8 0b10 = some (.memRd 0#32) ∧
  decodeTableWord 8 0b11 = some (.memWr 0#32 0#32)

/-- Decoding the bits of an encoded well-formed instruction gives it back, every operand at every value (R70 to R74). The packing of a
bus transaction into one number is the model's (log 6). -/
def Obligations.EncodedInstructionsDecodeBack : Prop :=
  ∀ i : Instr, i.wellFormed = true → decodeTableWord (encode i).nbits (encode i).bits = some i

/-- 30_encoding.md R71, row by row, and that each command word has one meaning: encoding what it decodes to gives it back. -/
def Obligations.CommandWordsDecodeByOpcode : Prop :=
  ∀ w : Word,
    (w.extractLsb' 4 28 = 0#28 →
      (w.extractLsb' 0 4 = 0x0#4 → decodeWord w = .illegal w) ∧
      (w.extractLsb' 0 4 = 0x1#4 → decodeWord w = .buildTables) ∧
      (w.extractLsb' 0 4 = 0x2#4 → decodeWord w = .prepEncode) ∧
      (w.extractLsb' 0 4 = 0x3#4 → decodeWord w = .prepDecode) ∧
      (w.extractLsb' 0 4 = 0x4#4 → decodeWord w = .encode) ∧
      (w.extractLsb' 0 4 = 0x5#4 → decodeWord w = .decode) ∧
      (6 ≤ (w.extractLsb' 0 4).toNat → decodeWord w = .illegal w)) ∧
    (w.extractLsb' 4 28 ≠ 0#28 → decodeWord w = .illegal w) ∧
    encode (decodeWord w) = .cmdw w

/-! ## Host transactions -/

/-- 44_host_access.md R210: every offset, in both phases, with what each read responds; the whole next state is given, so a read
changes nothing but the response (and the count of free values drawn). -/
def Obligations.RegisterReadsRespond : Prop :=
  (∀ a d : Word, decodeTxn { kind := 0b00#2, addr := a, data := d } = .regRd a) ∧
  ∀ s : State,
    exec (.regRd 0x00#32) s = .next { s with rdata := 0#32 } ∧
    exec (.regRd 0x04#32) s = .next { s with rdata := s.len } ∧
    exec (.regRd 0x08#32) s = .next { s with rdata := s.statusWord } ∧
    exec (.regRd 0x0C#32) s = .next { s with rdata := s.params.reservedSize } ∧
    exec (.regRd 0x1C#32) s = .next { s with rdata := s.params.pageSize } ∧
    exec (.regRd 0x20#32) s = .next { s with rdata := s.params.maxPages } ∧
    (s.phase = .idle →
      exec (.regRd 0x10#32) s = .next { s with rdata := s.outPtr } ∧
      exec (.regRd 0x14#32) s = .next { s with rdata := s.outLen } ∧
      exec (.regRd 0x18#32) s = .next { s with rdata := s.pages }) ∧
    (s.phase ≠ .idle → ∀ a : Word, a = 0x10#32 ∨ a = 0x14#32 ∨ a = 0x18#32 →
      exec (.regRd a) s = .next { s with rdata := Config.freeWord s.draws, draws := s.draws + 1 }) ∧
    (s.Inv → s.phase ≠ .idle → exec (.regRd 0x08#32) s = .next { s with rdata := 0x00000101#32 }) ∧
    (∀ a : Word, (∀ k, k < 9 → a.toNat ≠ 4 * k) → exec (.regRd a) s = .fault .reservedRegister)

/-- 10_state.md R27 read through `REG_RD`: every bit of `STATUS`. -/
def Obligations.StatusBitsReadAsLaidOut : Prop :=
  ∀ s : State, ∃ t, exec (.regRd 0x08#32) s = .next t ∧
    t.rdata.getLsbD 0 = s.busy ∧
    t.rdata.getLsbD 1 = s.done ∧
    t.rdata.extractLsb' 2 2 = 0#2 ∧
    t.rdata.extractLsb' 4 3 = errBits s.err ∧
    t.rdata.getLsbD 7 = false ∧
    t.rdata.getLsbD 8 = s.tablesReady ∧
    t.rdata.extractLsb' 9 23 = 0#23 ∧
    (s.phase = .idle ↔ s.busy = false)

/-- While a command runs `STATUS` reads 0x101, and after its completion 0x102 with the code in [6:4] (44_host_access.md R210,
60_exceptions.md R230, R244). -/
def Obligations.StatusTellsThePhase : Prop :=
  ∀ s : State, s.Inv →
    (s.phase ≠ .idle → exec (.regRd 0x08#32) s = .next { s with rdata := 0x00000101#32 }) ∧
    (s.phase = .idle → s.done = true →
      (s.err = .none → exec (.regRd 0x08#32) s = .next { s with rdata := 0x00000102#32 }) ∧
      (s.err = .invalidLength → exec (.regRd 0x08#32) s = .next { s with rdata := 0x00000112#32 }) ∧
      (s.err = .invalidCharacter → exec (.regRd 0x08#32) s = .next { s with rdata := 0x00000122#32 }) ∧
      (s.err = .outOfMemory → exec (.regRd 0x08#32) s = .next { s with rdata := 0x00000132#32 }) ∧
      (s.err = .illegalCommand → exec (.regRd 0x08#32) s = .next { s with rdata := 0x00000142#32 }))

/-- 44_host_access.md R211 with R214 and R216: the whole next state of a register write, in phase `IDLE` and while `BUSY`. -/
def Obligations.RegisterWritesTakeEffect : Prop :=
  (∀ a d : Word, decodeTxn { kind := 0b01#2, addr := a, data := d } = .regWr a d) ∧
  ∀ (s : State) (d : Word),
    (s.phase = .idle →
      exec (.regWr 0x00#32 d) s = .next { s with phase := .busy (decodeCommand d) s.len, done := false, err := .none } ∧
      exec (.regWr 0x04#32 d) s = .next { s with len := d }) ∧
    (s.phase ≠ .idle →
      exec (.regWr 0x00#32 d) s = .fault .commandWhileBusy ∧
      exec (.regWr 0x04#32 d) s = .fault .lenWriteWhileBusy) ∧
    (∀ a : Word, a = 0x08#32 ∨ a = 0x0C#32 ∨ a = 0x10#32 ∨ a = 0x14#32 ∨ a = 0x18#32 ∨ a = 0x1C#32 ∨ a = 0x20#32 →
      exec (.regWr a d) s = .next s) ∧
    (∀ a : Word, (∀ k, k < 9 → a.toNat ≠ 4 * k) → exec (.regWr a d) s = .fault .reservedRegister)

/-- 44_host_access.md R216: writes to read-only registers have no effect, in either phase. -/
def Obligations.ReadOnlyRegistersIgnoreWrites : Prop :=
  ∀ (s : State) (r : Reg) (d : Word), r ≠ .cmd → r ≠ .len → exec (.regWr (regOffset r) d) s = .next s

/-- 44_host_access.md R212: the checks in order, and the whole next state of each outcome. -/
def Obligations.RegionReadsRespond : Prop :=
  (∀ a d : Word, decodeTxn { kind := 0b10#2, addr := a, data := d } = .memRd a) ∧
  ∀ (s : State) (a : Word),
    (s.pages.toNat * s.params.pageSize.toNat ≤ a.toNat → exec (.memRd a) s = .fault .outOfBounds) ∧
    (a.toNat < s.pages.toNat * s.params.pageSize.toNat →
      (s.phase ≠ .idle ∨ a.toNat < s.params.reservedSize.toNat ∨ s.byteAt a.toNat = none →
        exec (.memRd a) s =
          .next { s with rdata := (Config.freeByte s.draws).setWidth 32, draws := s.draws + 1 }) ∧
      (∀ b, s.phase = .idle → s.params.reservedSize.toNat ≤ a.toNat → s.byteAt a.toNat = some b →
        exec (.memRd a) s = .next { s with rdata := b.setWidth 32 }))

/-- 44_host_access.md R213: the checks in order; a write that goes on changes one byte of the region and nothing else.
At or above the capacity the fault is `OutOfBounds` while `BUSY` too: the order of R213 against the words of 70_reset_and_hazards.md R265,
'at any offset', is the model's reading (DEDUCED, log 10). -/
def Obligations.RegionWritesStoreOneByte : Prop :=
  (∀ a d : Word, decodeTxn { kind := 0b11#2, addr := a, data := d } = .memWr a d) ∧
  ∀ (s : State) (a d : Word),
    (s.pages.toNat * s.params.pageSize.toNat ≤ a.toNat → exec (.memWr a d) s = .fault .outOfBounds) ∧
    (a.toNat < s.pages.toNat * s.params.pageSize.toNat → s.phase ≠ .idle →
      exec (.memWr a d) s = .fault .memWriteWhileBusy) ∧
    (a.toNat < s.pages.toNat * s.params.pageSize.toNat → s.phase = .idle → a.toNat < s.params.reservedSize.toNat →
      exec (.memWr a d) s = .fault .headerWrite) ∧
    (a.toNat < s.pages.toNat * s.params.pageSize.toNat → s.phase = .idle → s.params.reservedSize.toNat ≤ a.toNat →
      ∃ t, exec (.memWr a d) s = .next t ∧ t = { s with mem := t.mem } ∧
        t.byteAt a.toNat = some (d.extractLsb' 0 8) ∧
        (∀ x, x ≠ a.toNat → t.byteAt x = s.byteAt x) ∧ (s.mem.wf → t.mem.wf))

/-- A byte written by `MEM_WR` is what the next `MEM_RD` of the same offset responds, zero-extended (44_host_access.md R212, R213). -/
def Obligations.StoredByteReadsBack : Prop :=
  ∀ (s : State) (a d : Word), s.phase = .idle → s.params.reservedSize.toNat ≤ a.toNat → a.toNat < s.capacity →
    ∃ t u, exec (.memWr a d) s = .next t ∧ exec (.memRd a) t = .next u ∧
      u.rdata = 0#24 ++ d.extractLsb' 0 8 ∧ u.mem = t.mem ∧ u.draws = s.draws

/-- 70_reset_and_hazards.md R266: while `BUSY`, region reads and reads of `OUT_PTR`, `OUT_LEN` and `PAGES` respond with a value drawn
afresh, the other registers read exactly, and no read changes anything but the response and the count of draws. -/
def Obligations.ReadsWhileBusyAreUnspecified : Prop :=
  ∀ s : State, s.phase ≠ .idle →
    (∀ a : Word, a.toNat < s.capacity → exec (.memRd a) s =
      .next { s with rdata := (Config.freeByte s.draws).setWidth 32, draws := s.draws + 1 }) ∧
    (∀ r : Reg, r = .outPtr ∨ r = .outLen ∨ r = .pages → exec (.regRd (regOffset r)) s =
      .next { s with rdata := Config.freeWord s.draws, draws := s.draws + 1 }) ∧
    (∀ r : Reg, r ≠ .outPtr → r ≠ .outLen → r ≠ .pages →
      exec (.regRd (regOffset r)) s = .next { s with rdata := s.regValue r })

/-- 70_reset_and_hazards.md R263 and R264: a command or a `LEN` write while `BUSY` faults, whatever its data. -/
def Obligations.WritesWhileBusyFault : Prop :=
  ∀ (s : State) (op : Command) (l d : Word), s.phase = .busy op l →
    exec (.regWr (regOffset .cmd) d) s = .fault .commandWhileBusy ∧
    exec (.regWr (regOffset .len) d) s = .fault .lenWriteWhileBusy

/-! ## Tables -/

/-- 40_tables.md R104: `BUILD_TABLES` completes with code 0, its tables hold the contents of R100 and R101, and nothing else changes; in
a state that meets the invariant the tables do not change either (it is idempotent). -/
def Obligations.BuildTablesRewritesTheTables : Prop :=
  decodeWord 0x00000001#32 = .buildTables ∧
  ∀ s : State, ∃ t, exec .buildTables s = .next t ∧ TablesHold t.et t.dt ∧
    t = { s with phase := .idle, done := true, err := .none, et := t.et, dt := t.dt } ∧
    (s.Inv → t.et = s.et ∧ t.dt = s.dt)

/-- 40_tables.md R103: the inverse property, the lower-case property, and that `'='` is `INVALID`. -/
def Obligations.TablesAreInverse : Prop :=
  ∀ s : State, s.Inv →
    (∀ v : Quint, decLookup s.dt (encLookup s.et v) = some v) ∧
    (∀ v : Quint, v.toNat ≤ 25 → decLookup s.dt (encLookup s.et v + 0x20#8) = some v) ∧
    decLookup s.dt 0x3D#8 = none

/-- 40_tables.md R105: no other command and no host transaction writes the tables, and `BUILD_TABLES` writes only the values of R100
and R101. -/
def Obligations.OnlyBuildTablesWritesTables : Prop :=
  ∀ (i : Instr) (s t : State), exec i s = .next t →
    (i ≠ .buildTables → t.et = s.et ∧ t.dt = s.dt) ∧ (i = .buildTables → TablesHold t.et t.dt)

/-! ## Growth -/

/-- 43_growth.md R190, by `PREP_ENCODE` and `PREP_DECODE` with the projections of R191 and R192: no change, growth to exactly `need` pages with
contents kept and new locations `UNWRITTEN`, or `OutOfMemory` with no change. -/
def Obligations.PrepCommandsRunTheGrowthStep : Prop :=
  decodeWord 0x00000002#32 = .prepEncode ∧ decodeWord 0x00000003#32 = .prepDecode ∧
  ∀ (s : State) (op : Command) (n : Word) (proj need : Nat), s.phase = .busy op n →
    (op = .prepEncode ∧ proj = max (3 * n.toNat) (n.toNat + 8 * ((n.toNat + 4) / 5))) ∨
      (op = .prepDecode ∧ proj = 2 * n.toNat) →
    need = (s.params.reservedSize.toNat + proj + s.params.pageSize.toNat - 1) / s.params.pageSize.toNat →
    (need ≤ s.pages.toNat → exec op.instr s = .next { s with phase := .idle, done := true, err := .none }) ∧
    (s.pages.toNat < need → s.params.maxPages.toNat < need →
      exec op.instr s = .next { s with phase := .idle, done := true, err := .outOfMemory }) ∧
    (s.pages.toNat < need → need ≤ s.params.maxPages.toNat →
      ∃ t, exec op.instr s = .next t ∧ t.pages.toNat = need ∧
        t = { s with phase := .idle, done := true, err := .none, pages := t.pages, mem := t.mem } ∧
        (∀ a, s.capacity ≤ a → a < t.capacity → t.byteAt a = none) ∧
        (∀ a, a < s.capacity ∨ t.capacity ≤ a → t.byteAt a = s.byteAt a))

/-- 43_growth.md R191: the encode projection, and the six lengths at which `3n` would be too small. -/
def Obligations.EncodeProjectionExceedsTripleSixTimes : Prop :=
  ∀ n : Nat, projEnc n = max (3 * n) (n + 8 * ((n + 4) / 5)) ∧
    (projEnc n ≠ 3 * n ↔ n = 1 ∨ n = 2 ∨ n = 3 ∨ n = 6 ∨ n = 7 ∨ n = 11)

/-- 43_growth.md R195: `PAGES` never decreases, and only the four commands with a growth step write it. -/
def Obligations.PagesNeverDecrease : Prop :=
  ∀ (i : Instr) (s t : State), exec i s = .next t →
    s.pages.toNat ≤ t.pages.toNat ∧
    (t.pages ≠ s.pages → i = .prepEncode ∨ i = .prepDecode ∨ i = .encode ∨ i = .decode)

/-- 43_growth.md R196: `OutOfMemory` leaves `PAGES` and every region byte as they were, in every command that grows. -/
def Obligations.OutOfMemoryChangesOnlyTheResult : Prop :=
  ∀ (s : State) (op : Command) (n : Word) (proj : Nat), s.phase = .busy op n →
    (((op = .prepEncode ∨ op = .encode) ∧ proj = projEnc n.toNat) ∨
      (op = .prepDecode ∧ proj = projDec n.toNat) ∨
      (op = .decode ∧ n.toNat % 8 = 0 ∧ proj = projDec n.toNat)) →
    s.pages.toNat ≤ s.params.maxPages.toNat → ¬ s.Fits proj →
    ∃ t, exec op.instr s = .next t ∧ Completed t .outOfMemory ∧ t.pages = s.pages ∧ (∀ a, t.byteAt a = s.byteAt a) ∧
      SameButCodec s t ∧
      (op = .prepEncode ∨ op = .prepDecode → t.outPtr = s.outPtr ∧ t.outLen = s.outLen) ∧
      (op = .encode ∨ op = .decode → t.outPtr = 0#32 ∧ t.outLen = 0#32)

/-- 43_growth.md R197: after a successful growth step the header, the input and the output of the codec command fit in the region.
The spec marks R197 as its own inference from R190, R191 and R192. -/
def Obligations.GrowthStepSuffices : Prop :=
  ∀ (s t : State) (n : Nat), s.params.Valid →
    (s.grow (projEnc n) = some t →
      s.params.reservedSize.toNat + n + 8 * divUp n 5 ≤ t.pages.toNat * t.params.pageSize.toNat) ∧
    (s.grow (projDec n) = some t →
      s.params.reservedSize.toNat + n + 5 * (n / 8) ≤ t.pages.toNat * t.params.pageSize.toNat)

/-! ## ENCODE -/

/-- 41_encode.md R122, R123, R126, with the completion and `OUT_PTR` of R120 and the placement of R128: with its input written and the region able to grow, `ENCODE` completes with code 0, and its output is the
input's bit stream, most significant bit first, cut into 5-bit windows looked up in `ET`, then `'='` up to a multiple of 8. -/
def Obligations.EncodeWritesThePackedCharacters : Prop :=
  ∀ (s : State) (n : Word) (b : Nat → Byte), s.Inv → s.phase = .busy .encode n → s.Fits (projEnc n.toNat) →
    s.InputIs n.toNat b →
    ∃ t, exec .encode s = .next t ∧ Completed t .none ∧
      t.outPtr.toNat = s.params.reservedSize.toNat + n.toNat ∧
      t.outLen.toNat = 8 * ((n.toNat + 4) / 5) ∧
      (∀ m v, m < (8 * n.toNat + 4) / 5 →
        (∀ j, j < 5 → BitVec.getLsbD v (4 - j) = byteStreamBit b n.toNat (5 * m + j)) →
        t.byteAt (t.outPtr.toNat + m) = some (encLookup s.et v)) ∧
      (∀ m, (8 * n.toNat + 4) / 5 ≤ m → m < 8 * ((n.toNat + 4) / 5) →
        t.byteAt (t.outPtr.toNat + m) = some 0x3D#8)

/-- The frame of `ENCODE` (41_encode.md R120, R128): besides the phase, `DONE` and `ERRCODE` it writes `OUT_PTR`, `OUT_LEN`, `PAGES` (growth) and
the output bytes; every other byte of the region, the input among them, reads as before. -/
def Obligations.EncodeChangesOnlyItsOutput : Prop :=
  ∀ (s t : State) (n : Word), s.Inv → s.phase = .busy .encode n → exec .encode s = .next t →
    SameButCodec s t ∧ (Completed t .none ∨ Completed t .outOfMemory) ∧
    t.pages.toNat = (if t.err = .none then max s.pages.toNat (s.pagesNeeded (projEnc n.toNat)) else s.pages.toNat) ∧
    (t.err ≠ .none → t.outPtr = 0#32 ∧ t.outLen = 0#32 ∧ ∀ a, t.byteAt a = s.byteAt a) ∧
    (t.err = .none → ∀ a, a < s.outBase ∨ s.outBase + encLength n.toNat ≤ a → t.byteAt a = s.byteAt a)

/-- 41_encode.md R127: every output byte is in `A-Z`, `2-7` or `=`, and `'='` stands only after the data characters, at the end of the last group. -/
def Obligations.EncodedOutputStaysInTheAlphabet : Prop :=
  ∀ (s t : State) (n : Word), s.Inv → s.phase = .busy .encode n → exec .encode s = .next t → t.err = .none →
    ∀ m, m < 8 * ((n.toNat + 4) / 5) → ∃ c : Byte, t.byteAt (t.outPtr.toNat + m) = some c ∧
      ((0x41 ≤ c.toNat ∧ c.toNat ≤ 0x5A) ∨ (0x32 ≤ c.toNat ∧ c.toNat ≤ 0x37) ∨ c = 0x3D#8) ∧
      (c = 0x3D#8 ↔ (8 * n.toNat + 4) / 5 ≤ m)

/-- 41_encode.md R129 (and 42_decode.md R162 for `DECODE`): two runs with the same parameters, operand and input bytes give the same result and the
same output bytes, whatever else the two states hold. -/
def Obligations.CodecDependsOnItsInputAlone : Prop :=
  ∀ (s s' t : State) (op : Command) (n : Word), s.Inv → s'.Inv → op = .encode ∨ op = .decode →
    s.phase = .busy op n → s'.phase = .busy op n → s'.params = s.params →
    (∀ i, i < n.toNat → s'.byteAt (s.inBase + i) = s.byteAt (s.inBase + i)) →
    exec op.instr s = .next t →
    ∃ t', exec op.instr s' = .next t' ∧ t'.err = t.err ∧ t'.outPtr = t.outPtr ∧ t'.outLen = t.outLen ∧
      ∀ m, m < t.outLen.toNat → t'.byteAt (t.outPtr.toNat + m) = t.byteAt (t.outPtr.toNat + m)

/-! ## DECODE -/

/-- 60_exceptions.md R236: a command reports the first cause in the order `InvalidLength` (`DECODE` only), `OutOfMemory`, the model fault
`UnwrittenInput`, `InvalidCharacter` (`DECODE` only), and nothing after that cause has executed. -/
def Obligations.CommandsReportTheFirstCause : Prop :=
  ∀ (s : State) (n : Word), s.Inv →
    (s.phase = .busy .decode n → n.toNat % 8 ≠ 0 →
      ∃ t, exec .decode s = .next t ∧ Completed t .invalidLength ∧ t.pages = s.pages ∧ ∀ a, t.byteAt a = s.byteAt a) ∧
    (s.phase = .busy .decode n → n.toNat % 8 = 0 → ¬ s.Fits (projDec n.toNat) →
      ∃ t, exec .decode s = .next t ∧ Completed t .outOfMemory ∧ t.pages = s.pages ∧ ∀ a, t.byteAt a = s.byteAt a) ∧
    (s.phase = .busy .decode n → n.toNat % 8 = 0 → s.Fits (projDec n.toNat) →
      (∃ i, i < n.toNat ∧ s.byteAt (s.inBase + i) = none) → exec .decode s = .fault .unwrittenInput) ∧
    (s.phase = .busy .decode n → n.toNat % 8 = 0 → s.Fits (projDec n.toNat) →
      (∀ i, i < n.toNat → s.byteAt (s.inBase + i) ≠ none) →
      ∃ t, exec .decode s = .next t ∧ (Completed t .none ∨ Completed t .invalidCharacter)) ∧
    (s.phase = .busy .encode n → ¬ s.Fits (projEnc n.toNat) →
      ∃ t, exec .encode s = .next t ∧ Completed t .outOfMemory ∧ t.pages = s.pages ∧ ∀ a, t.byteAt a = s.byteAt a) ∧
    (s.phase = .busy .encode n → s.Fits (projEnc n.toNat) →
      (∃ i, i < n.toNat ∧ s.byteAt (s.inBase + i) = none) → exec .encode s = .fault .unwrittenInput) ∧
    (s.phase = .busy .encode n → s.Fits (projEnc n.toNat) →
      (∀ i, i < n.toNat → s.byteAt (s.inBase + i) ≠ none) → ∃ t, exec .encode s = .next t ∧ Completed t .none)

/-- 42_decode.md R151: a length that is no multiple of 8 fails with `InvalidLength` and changes no `PAGES` and no region byte; `PREP_DECODE` does not
check it (43_growth.md R194). -/
def Obligations.InvalidLengthIsCheckedFirst : Prop :=
  ∀ (s : State) (n : Word), s.phase = .busy .decode n → n.toNat % 8 ≠ 0 →
    exec .decode s =
      .next { s with phase := .idle, done := true, err := .invalidLength, outPtr := 0#32, outLen := 0#32 }

/-- 42_decode.md R156, R158: characters of the alphabet followed by a legal run of `'='` decode; the output is the stream of their 5-bit values,
most significant bit first, cut into bytes, and its length is `5 * G - LOSS(p)`. -/
def Obligations.DecodeWritesTheUnpackedBytes : Prop :=
  ∀ (s : State) (n : Word) (p : Nat) (c : Nat → Byte) (q : Nat → Quint), s.Inv → s.phase = .busy .decode n →
    n.toNat % 8 = 0 → s.Fits (projDec n.toNat) → s.InputIs n.toNat c →
    (p = 0 ∨ p = 1 ∨ p = 3 ∨ p = 4 ∨ p = 6) → p ≤ n.toNat →
    (∀ m, m < n.toNat - p → decLookup s.dt (c m) = some (q m)) →
    (∀ m, n.toNat - p ≤ m → m < n.toNat → c m = 0x3D#8) →
    ∃ t, exec .decode s = .next t ∧ Completed t .none ∧
      t.outPtr.toNat = s.params.reservedSize.toNat + n.toNat ∧
      t.outLen.toNat = 5 * (n.toNat / 8) -
        (if p = 0 then 0 else if p = 1 then 1 else if p = 3 then 2 else if p = 4 then 3 else 4) ∧
      (∀ m v, m < t.outLen.toNat → (∀ j, j < 8 → BitVec.getLsbD v (7 - j) = quintStreamBit q (8 * m + j)) →
        t.byteAt (t.outPtr.toNat + m) = some v)

/-- 60_exceptions.md R232: a group whose trailing run of `'='` (42_decode.md R152) is not 0, 1, 3, 4 or 6, a data character that maps to `INVALID`, or a
padded group that is not the last, raises `InvalidCharacter`, which records nothing but the code. -/
def Obligations.MalformedGroupsAreRejected : Prop :=
  ∀ (s : State) (n : Word) (c : Nat → Byte) (g p : Nat), s.Inv → s.phase = .busy .decode n →
    n.toNat % 8 = 0 → s.Fits (projDec n.toNat) → s.InputIs n.toNat c → g < n.toNat / 8 → p ≤ 8 →
    (∀ k, 8 - p ≤ k → k < 8 → c (8 * g + k) = 0x3D#8) → (p = 8 ∨ c (8 * g + (7 - p)) ≠ 0x3D#8) →
    ((p ≠ 0 ∧ p ≠ 1 ∧ p ≠ 3 ∧ p ≠ 4 ∧ p ≠ 6) ∨ (p ≠ 0 ∧ g ≠ n.toNat / 8 - 1) ∨
      ∃ k, k < 8 - p ∧ decLookup s.dt (c (8 * g + k)) = none) →
    ∃ t, exec .decode s = .next t ∧ Completed t .invalidCharacter ∧ SameButCodec s t

/-- 42_decode.md R153, R154, R155 together: with its input written, `DECODE` succeeds exactly when the input is characters of the alphabet followed by
one legal run of `'='`. -/
def Obligations.DecodeAcceptsExactlyWellFormedInput : Prop :=
  ∀ (s : State) (n : Word) (c : Nat → Byte), s.Inv → s.phase = .busy .decode n →
    n.toNat % 8 = 0 → s.Fits (projDec n.toNat) → s.InputIs n.toNat c →
    ((∃ t, exec .decode s = .next t ∧ Completed t .none) ↔
      ∃ p, (p = 0 ∨ p = 1 ∨ p = 3 ∨ p = 4 ∨ p = 6) ∧ p ≤ n.toNat ∧
        (∀ m, m < n.toNat - p → decLookup s.dt (c m) ≠ none) ∧
        (∀ m, n.toNat - p ≤ m → m < n.toNat → c m = 0x3D#8))

/-- 42_decode.md R160: a failed `DECODE` sets `OUT_PTR` and `OUT_LEN` to 0; after `InvalidCharacter` its output area is `UNWRITTEN` and every other
byte is unchanged; after the other errors no region byte has changed. -/
def Obligations.FailedDecodeReturnsNothing : Prop :=
  ∀ (s t : State) (n : Word), s.Inv → s.phase = .busy .decode n → exec .decode s = .next t → t.err ≠ .none →
    t.outPtr = 0#32 ∧ t.outLen = 0#32 ∧
    (t.err = .invalidCharacter →
      (∀ a, s.params.reservedSize.toNat + n.toNat ≤ a →
        a < s.params.reservedSize.toNat + n.toNat + 5 * (n.toNat / 8) → t.byteAt a = none) ∧
      (∀ a, a < s.params.reservedSize.toNat + n.toNat ∨
        s.params.reservedSize.toNat + n.toNat + 5 * (n.toNat / 8) ≤ a → t.byteAt a = s.byteAt a)) ∧
    (t.err ≠ .invalidCharacter → ∀ a, t.byteAt a = s.byteAt a)

/-- The frame of `DECODE` (42_decode.md R150, R162): besides the phase, `DONE` and `ERRCODE` it writes `OUT_PTR`, `OUT_LEN`, `PAGES` (growth) and its
output area; after success every byte outside the `OUT_LEN` output bytes reads as before. -/
def Obligations.DecodeChangesOnlyItsOutput : Prop :=
  ∀ (s t : State) (n : Word), s.Inv → s.phase = .busy .decode n → exec .decode s = .next t →
    SameButCodec s t ∧ t.phase = .idle ∧ t.done = true ∧ t.err ≠ .illegalCommand ∧
    t.pages.toNat =
      (if t.err = .none ∨ t.err = .invalidCharacter then max s.pages.toNat (s.pagesNeeded (projDec n.toNat))
       else s.pages.toNat) ∧
    (t.err = .none → t.outPtr.toNat = s.outBase ∧ t.outLen.toNat ≤ 5 * (n.toNat / 8) ∧
      ∀ a, a < s.outBase ∨ s.outBase + t.outLen.toNat ≤ a → t.byteAt a = s.byteAt a)

/-- 42_decode.md R159 (91_not_in_source.md: derived, not quoted): lower-case letters in the input decode as the upper-case string. `u` holds the input of `s` with any of its letters
in lower case. -/
def Obligations.DecodeIgnoresCase : Prop :=
  ∀ (s u t : State) (n : Word) (c d : Nat → Byte), s.Inv → u.Inv → u.params = s.params →
    s.phase = .busy .decode n → u.phase = .busy .decode n → s.InputIs n.toNat c → u.InputIs n.toNat d →
    (∀ i, i < n.toNat → d i = c i ∨ (0x41 ≤ (c i).toNat ∧ (c i).toNat ≤ 0x5A ∧ d i = c i + 0x20#8)) →
    exec .decode s = .next t →
    ∃ v, exec .decode u = .next v ∧ v.err = t.err ∧ v.outPtr = t.outPtr ∧ v.outLen = t.outLen ∧
      ∀ m, m < t.outLen.toNat → v.byteAt (t.outPtr.toNat + m) = t.byteAt (t.outPtr.toNat + m)

/-- 42_decode.md R163, the round trip: the output of an `ENCODE` of `b`, placed as the input of a `DECODE` whose region can grow, decodes to `b`. The two
states need share nothing. That the decode fits is a premise, since R192 and R196 let it fail (log 11). -/
def Obligations.DecodeInvertsEncode : Prop :=
  ∀ (s t u : State) (n l : Word) (b : Nat → Byte), s.Inv → u.Inv →
    s.phase = .busy .encode n → s.InputIs n.toNat b → exec .encode s = .next t → t.err = .none →
    u.phase = .busy .decode l → l.toNat = 8 * ((n.toNat + 4) / 5) → u.Fits (projDec l.toNat) →
    (∀ m, m < l.toNat → u.byteAt (u.inBase + m) = t.byteAt (t.outPtr.toNat + m)) →
    ∃ v, exec .decode u = .next v ∧ Completed v .none ∧ v.outLen = n ∧
      ∀ m, m < n.toNat → v.byteAt (v.outPtr.toNat + m) = some (b m)

/-! ## The whole machine -/

/-- 60_exceptions.md R234: a reserved command word decodes to `ILLEGAL`, which completes with `ILLEGAL_COMMAND` and changes no state but
`STATUS`; `OUT_PTR` and `OUT_LEN` keep their values. -/
def Obligations.IllegalCompletesWithItsCode : Prop :=
  ∀ (s : State) (w : Word), reservedWord w = true →
    decodeWord w = .illegal w ∧
    exec (.illegal w) s = .next { s with phase := .idle, done := true, err := .illegalCommand }

/-- Each register has its own writers (10_state.md R26, R27, R29, R30, R31, R34): only a host write of `LEN` changes `LEN`, only `ENCODE` and
`DECODE` change `OUT_PTR` and `OUT_LEN`, only the four commands that grow change `PAGES`, a host transaction other than a write of `CMD` keeps
`BUSY`, `DONE` and `ERRCODE`, a write of `CMD` that goes on sets the first and clears the others, and no instruction changes `TABLES_READY`, the
constants `IN_PTR`, `PAGE_SIZE` and `MAX_PAGES`, the host's moves or the schedule. -/
def Obligations.EachRegisterHasItsWriters : Prop :=
  ∀ (i : Instr) (s t : State), exec i s = .next t →
    ((∀ d, i ≠ .regWr (regOffset .len) d) → t.len = s.len) ∧
    (i ≠ .encode → i ≠ .decode → t.outPtr = s.outPtr ∧ t.outLen = s.outLen) ∧
    (i ≠ .prepEncode → i ≠ .prepDecode → i ≠ .encode → i ≠ .decode → t.pages = s.pages) ∧
    (isTransaction i = true → (∀ d, i ≠ .regWr (regOffset .cmd) d) →
      t.busy = s.busy ∧ t.done = s.done ∧ t.err = s.err) ∧
    (∀ d, i = .regWr (regOffset .cmd) d → t.busy = true ∧ t.done = false ∧ t.err = .none) ∧
    ((∀ a, i ≠ .regRd a) → (∀ a, i ≠ .memRd a) → t.rdata = s.rdata ∧ t.draws = s.draws) ∧
    t.tablesReady = s.tablesReady ∧ t.params = s.params ∧ t.hostQueue = s.hostQueue ∧ t.turns = s.turns

/-- Commands end in phase `IDLE` with `DONE` set, and a host transaction never completes one: in phase `BUSY` it leaves the phase, `DONE` and
`ERRCODE` alone, so an instruction that leaves phase `BUSY` is a command; from phase `IDLE` the phase changes only by issuing a command through
`CMD` (60_exceptions.md R244, 44_host_access.md R214, 10_state.md R23). -/
def Obligations.OnlyCompletionLeavesBusy : Prop :=
  ∀ (i : Instr) (s t : State), exec i s = .next t →
    (isTransaction i = false → t.phase = .idle ∧ t.done = true) ∧
    (isTransaction i = true → s.phase ≠ .idle → t.phase = s.phase ∧ t.done = s.done ∧ t.err = s.err) ∧
    (t.phase ≠ s.phase → s.phase ≠ .idle → isTransaction i = false ∧ t.phase = .idle ∧ t.done = true) ∧
    (t.phase ≠ s.phase → s.phase = .idle → ∃ d, i = .regWr (regOffset .cmd) d ∧
      t = { s with phase := .busy (decodeCommand d) s.len, done := false, err := .none })

/-- No instruction changes a byte of the header (20_memory.md R63): a host write there faults, and no command touches it. -/
def Obligations.TheHeaderIsNeverWritten : Prop :=
  ∀ (i : Instr) (s t : State), s.Inv → exec i s = .next t → ∀ a, a < s.inBase → t.byteAt a = s.byteAt a
end

