-- ==== Sys2Proof/Laws/Memory.lean ====
section
/-! SUPPORT. The laws of the byte region: read after write, clearing, runs of bytes, and that every operation keeps the
canonical form and the bounds of the listed addresses. -/

namespace Sys2Proof.Machine

/-! One byte -/

@[simp] theorem read_nil (x : Nat) : Memory.read [] x = none := rfl

theorem read_cons (a : Nat) (b : Byte) (m : Memory) (x : Nat) :
    Memory.read ((a, b) :: m) x = if x = a then some b else Memory.read m x := rfl

/-- Read after write: the byte written at the same offset, the old content elsewhere. -/
theorem read_write (m : Memory) (x y : Nat) (v : Byte) :
    (m.write x v).read y = if y = x then some v else m.read y := by
  induction m with
  | nil => simp [Memory.write, read_cons]
  | cons c m ih =>
    obtain ⟨a, b⟩ := c
    rcases Nat.lt_trichotomy x a with h | h | h
    · rw [Memory.write, if_pos h, read_cons]
    · subst h
      rw [Memory.write, if_neg (Nat.lt_irrefl _), if_pos rfl, read_cons, read_cons]
      by_cases hy : y = x <;> simp [hy]
    · rw [Memory.write, if_neg (by omega), if_neg (by omega), read_cons, read_cons, ih]
      by_cases hy : y = a
      · rw [if_pos hy, if_neg (by omega), if_pos hy]
      · rw [if_neg hy, if_neg hy]

@[simp] theorem read_write_same (m : Memory) (x : Nat) (v : Byte) : (m.write x v).read x = some v := by
  simp [read_write]

theorem read_write_other (m : Memory) {x y : Nat} (v : Byte) (h : y ≠ x) : (m.write x v).read y = m.read y := by
  simp [read_write, h]

/-- Clearing makes a range `UNWRITTEN` and changes nothing else. -/
theorem read_clear (m : Memory) (x n y : Nat) :
    (m.clear x n).read y = if x ≤ y ∧ y < x + n then none else m.read y := by
  induction m with
  | nil => simp [Memory.clear]
  | cons c m ih =>
    obtain ⟨a, b⟩ := c
    simp only [Memory.clear, List.filter_cons] at ih ⊢
    by_cases hin : x ≤ a ∧ a < x + n
    · simp only [hin.1, hin.2, decide_true, Bool.and_self, Bool.not_true, Bool.false_eq_true, if_false, ih, read_cons]
      split_ifs with h1 h2 <;> first | rfl | (subst h2; exact absurd hin h1)
    · have : (!(decide (x ≤ a) && decide (a < x + n))) = true := by
        simp only [Bool.not_eq_true', Bool.and_eq_false_iff, decide_eq_false_iff_not]; omega
      simp only [this, if_true, read_cons, ih]
      by_cases hya : y = a
      · subst hya; simp [hin]
      · simp [hya]

/-! Runs of bytes -/

/-- Reading after writing a run of bytes. -/
theorem read_writeBytes (m : Memory) (x : Nat) (vs : List Byte) (y : Nat) :
    (m.writeBytes x vs).read y = if x ≤ y ∧ y < x + vs.length then vs[y - x]? else m.read y := by
  induction vs generalizing m x with
  | nil => rw [Memory.writeBytes, if_neg (by simp)]
  | cons v vs ih =>
    rw [Memory.writeBytes, ih, read_write]
    by_cases h : y = x
    · subst h; simp
    · by_cases h2 : x + 1 ≤ y ∧ y < x + 1 + vs.length
      · have e : y - x = (y - (x + 1)) + 1 := by omega
        rw [if_pos h2, if_pos (by simp; omega), e, List.getElem?_cons_succ]
      · rw [if_neg h2, if_neg h, if_neg (by simp; omega)]

theorem readBytes_succ (m : Memory) (x n : Nat) :
    m.readBytes x (n + 1) =
      match m.read x, m.readBytes (x + 1) n with
      | some b, some bs => some (b :: bs)
      | _, _ => none := rfl

/-- A run of bytes is read exactly when every location of it holds the byte in question. -/
theorem readBytes_eq_some (m : Memory) (x n : Nat) (bs : List Byte) :
    m.readBytes x n = some bs ↔ bs.length = n ∧ ∀ i, i < n → m.read (x + i) = bs[i]? := by
  induction n generalizing x bs with
  | zero => cases bs <;> simp [Memory.readBytes]
  | succ n ih =>
    rw [readBytes_succ]
    cases bs with
    | nil => cases m.read x <;> cases m.readBytes (x + 1) n <;> simp
    | cons b bs =>
      constructor
      · intro h
        cases hx : m.read x with
        | none => simp [hx] at h
        | some b' =>
          cases hr : m.readBytes (x + 1) n with
          | none => simp [hx, hr] at h
          | some bs' =>
            simp only [hx, hr, Option.some.injEq, List.cons.injEq] at h
            obtain ⟨rfl, rfl⟩ := h
            obtain ⟨hl, hi⟩ := (ih _ _).1 hr
            refine ⟨by simp [hl], fun i hi' => ?_⟩
            cases i with
            | zero => simpa using hx
            | succ i =>
              have := hi i (by omega)
              rw [List.getElem?_cons_succ, ← this]; congr 1; omega
      · rintro ⟨hl, hi⟩
        have hx : m.read x = some b := by simpa using hi 0 (by omega)
        have hr : m.readBytes (x + 1) n = some bs := by
          refine (ih _ _).2 ⟨by simpa using hl, fun i hi' => ?_⟩
          have := hi (i + 1) (by omega)
          rw [List.getElem?_cons_succ] at this
          rw [← this]; congr 1; omega
        simp [hx, hr]

theorem readBytes_length {m : Memory} {x n : Nat} {bs : List Byte} (h : m.readBytes x n = some bs) : bs.length = n :=
  ((readBytes_eq_some m x n bs).1 h).1

/-- A run of bytes cannot be read exactly when one of its locations is `UNWRITTEN`. -/
theorem readBytes_eq_none (m : Memory) (x n : Nat) : m.readBytes x n = none ↔ ∃ i, i < n ∧ m.read (x + i) = none := by
  induction n generalizing x with
  | zero => simp [Memory.readBytes]
  | succ n ih =>
    rw [readBytes_succ]
    constructor
    · intro h
      cases hx : m.read x with
      | none => exact ⟨0, by omega, by simpa using hx⟩
      | some b =>
        cases hr : m.readBytes (x + 1) n with
        | none =>
          obtain ⟨i, hi, hn⟩ := (ih _).1 hr
          exact ⟨i + 1, by omega, by rw [← hn]; congr 1; omega⟩
        | some bs => simp [hx, hr] at h
    · rintro ⟨i, hi, hn⟩
      cases i with
      | zero => rw [Nat.add_zero] at hn; simp [hn]
      | succ i =>
        have hr : m.readBytes (x + 1) n = none := (ih _).2 ⟨i, by omega, by rw [← hn]; congr 1; omega⟩
        cases m.read x <;> simp [hr]

/-- Two regions that agree on a run of locations give the same run of bytes. -/
theorem readBytes_congr {m m' : Memory} {x n : Nat} (h : ∀ i, i < n → m.read (x + i) = m'.read (x + i)) :
    m.readBytes x n = m'.readBytes x n := by
  induction n generalizing x with
  | zero => rfl
  | succ n ih =>
    have h0 := h 0 (by omega)
    rw [Nat.add_zero] at h0
    have ht : m.readBytes (x + 1) n = m'.readBytes (x + 1) n := ih (fun i hi => by
      have := h (i + 1) (by omega)
      rwa [show x + (i + 1) = x + 1 + i by omega] at this)
    rw [readBytes_succ, readBytes_succ, h0, ht]

/-! The canonical form -/

theorem mem_write {m : Memory} {x : Nat} {v : Byte} {c : Host.Cell} (h : c ∈ m.write x v) : c ∈ m ∨ c = (x, v) := by
  induction m with
  | nil => simpa [Memory.write] using h
  | cons d m ih =>
    obtain ⟨a, b⟩ := d
    unfold Memory.write at h
    split_ifs at h with h1 h2
    · simp only [List.mem_cons] at h ⊢; tauto
    · simp only [List.mem_cons] at h ⊢; tauto
    · simp only [List.mem_cons] at h ⊢
      rcases h with h | h
      · tauto
      · rcases ih h with h | h <;> tauto

theorem write_wf {m : Memory} (h : m.wf) (x : Nat) (v : Byte) : (m.write x v).wf := by
  induction m with
  | nil => simp [Memory.write, Memory.wf]
  | cons d m ih =>
    obtain ⟨a, b⟩ := d
    obtain ⟨hlt, htl⟩ := List.pairwise_cons.1 h
    unfold Memory.write
    split_ifs with h1 h2
    · refine List.pairwise_cons.2 ⟨fun c hc => ?_, h⟩
      rcases List.mem_cons.1 hc with rfl | hc
      · exact h1
      · exact Nat.lt_trans h1 (hlt c hc)
    · subst h2; exact List.pairwise_cons.2 ⟨fun c hc => hlt c hc, htl⟩
    · refine List.pairwise_cons.2 ⟨fun c hc => ?_, ih htl⟩
      rcases mem_write hc with hc | rfl
      · exact hlt c hc
      · show a < x; omega

theorem writeBytes_wf {m : Memory} (h : m.wf) (x : Nat) (vs : List Byte) : (m.writeBytes x vs).wf := by
  induction vs generalizing m x with
  | nil => exact h
  | cons v vs ih => exact ih (write_wf h x v) (x + 1)

theorem clear_wf {m : Memory} (h : m.wf) (x n : Nat) : (m.clear x n).wf :=
  List.Pairwise.filter _ h

theorem mem_writeBytes {m : Memory} {x : Nat} {vs : List Byte} {c : Host.Cell} (h : c ∈ m.writeBytes x vs) :
    c ∈ m ∨ (x ≤ c.1 ∧ c.1 < x + vs.length) := by
  induction vs generalizing m x with
  | nil => exact Or.inl h
  | cons v vs ih =>
    rcases ih h with h | ⟨h1, h2⟩
    · rcases mem_write h with h | rfl
      · exact Or.inl h
      · exact Or.inr ⟨Nat.le_refl _, by simp⟩
    · exact Or.inr ⟨by omega, by simp only [List.length_cons]; omega⟩

theorem mem_clear {m : Memory} {x n : Nat} {c : Host.Cell} (h : c ∈ m.clear x n) : c ∈ m :=
  (List.mem_filter.1 h).1

theorem read_eq_none_of_lt {m : Memory} {x : Nat} (h : ∀ c ∈ m, x < c.1) : m.read x = none := by
  induction m with
  | nil => rfl
  | cons d m ih =>
    obtain ⟨a, b⟩ := d
    have h1 : x < a := h (a, b) (by simp)
    rw [read_cons, if_neg (by omega), ih (fun c hc => h c (by simp [hc]))]

/-- A location that holds a byte is listed. -/
theorem mem_of_read {m : Memory} {x : Nat} {v : Byte} (h : m.read x = some v) : (x, v) ∈ m := by
  induction m with
  | nil => simp at h
  | cons d m ih =>
    obtain ⟨a, b⟩ := d
    rw [read_cons] at h
    split_ifs at h with h1
    · cases h; subst h1; simp
    · exact List.mem_cons_of_mem _ (ih h)

/-- Equal memories are equal data: two canonical lists that read alike everywhere are the same list. -/
theorem wf_ext {m m' : Memory} (h : m.wf) (h' : m'.wf) (hr : ∀ x, m.read x = m'.read x) : m = m' := by
  induction m generalizing m' with
  | nil =>
    cases m' with
    | nil => rfl
    | cons d m' =>
      have := hr d.1
      rw [read_nil, read_cons, if_pos rfl] at this
      cases this
  | cons c m ih =>
    cases m' with
    | nil =>
      have := hr c.1
      rw [read_nil, read_cons, if_pos rfl] at this
      cases this
    | cons d m' =>
      obtain ⟨a, b⟩ := c
      obtain ⟨a', b'⟩ := d
      obtain ⟨h1, h2⟩ := List.pairwise_cons.1 h
      obtain ⟨h1', h2'⟩ := List.pairwise_cons.1 h'
      have hlt : ∀ x, x ≤ a → Memory.read m x = none := fun x hx => read_eq_none_of_lt (fun c hc => Nat.lt_of_le_of_lt hx (h1 c hc))
      have hlt' : ∀ x, x ≤ a' → Memory.read m' x = none :=
        fun x hx => read_eq_none_of_lt (fun c hc => Nat.lt_of_le_of_lt hx (h1' c hc))
      have haa : a = a' := by
        have ha := hr a
        have ha' := hr a'
        simp only [read_cons, if_true] at ha ha'
        by_contra hne
        rw [if_neg hne] at ha
        rw [if_neg (fun e => hne e.symm)] at ha'
        rcases Nat.lt_or_ge a a' with hl | hl
        · rw [hlt' a (by omega)] at ha; cases ha
        · rw [hlt a' hl] at ha'; cases ha'
      subst haa
      have hb : b = b' := by simpa [read_cons] using hr a
      subst hb
      rw [ih h2 h2' (fun x => ?_)]
      by_cases hx : x ≤ a
      · rw [hlt x hx, hlt' x hx]
      · have := hr x
        rwa [read_cons, read_cons, if_neg (by omega), if_neg (by omega)] at this

end Sys2Proof.Machine
end

