-- ==== Sys2Proof/Laws/State.lean ====
section
/-! SUPPORT. One lemma per field and per named update of `State`, and the same for the derived views (`busy`, `operand`,
`inBase`, `outBase`, `capacity`), so that no proof unfolds a record update. -/

namespace Sys2Proof.Machine

variable (s : State)

/-! `State.acceptCommand` -/

@[simp] theorem acceptCommand_params (op : Command) : (s.acceptCommand op).params = s.params := rfl
@[simp] theorem acceptCommand_phase (op : Command) : (s.acceptCommand op).phase = .busy op s.len := rfl
@[simp] theorem acceptCommand_len (op : Command) : (s.acceptCommand op).len = s.len := rfl
@[simp] theorem acceptCommand_done (op : Command) : (s.acceptCommand op).done = false := rfl
@[simp] theorem acceptCommand_err (op : Command) : (s.acceptCommand op).err = .none := rfl
@[simp] theorem acceptCommand_tablesReady (op : Command) : (s.acceptCommand op).tablesReady = s.tablesReady := rfl
@[simp] theorem acceptCommand_outPtr (op : Command) : (s.acceptCommand op).outPtr = s.outPtr := rfl
@[simp] theorem acceptCommand_outLen (op : Command) : (s.acceptCommand op).outLen = s.outLen := rfl
@[simp] theorem acceptCommand_pages (op : Command) : (s.acceptCommand op).pages = s.pages := rfl
@[simp] theorem acceptCommand_et (op : Command) : (s.acceptCommand op).et = s.et := rfl
@[simp] theorem acceptCommand_dt (op : Command) : (s.acceptCommand op).dt = s.dt := rfl
@[simp] theorem acceptCommand_mem (op : Command) : (s.acceptCommand op).mem = s.mem := rfl
@[simp] theorem acceptCommand_rdata (op : Command) : (s.acceptCommand op).rdata = s.rdata := rfl
@[simp] theorem acceptCommand_hostQueue (op : Command) : (s.acceptCommand op).hostQueue = s.hostQueue := rfl
@[simp] theorem acceptCommand_turns (op : Command) : (s.acceptCommand op).turns = s.turns := rfl
@[simp] theorem acceptCommand_draws (op : Command) : (s.acceptCommand op).draws = s.draws := rfl

/-! `State.complete` -/

@[simp] theorem complete_params (c : ErrCode) : (s.complete c).params = s.params := rfl
@[simp] theorem complete_phase (c : ErrCode) : (s.complete c).phase = .idle := rfl
@[simp] theorem complete_len (c : ErrCode) : (s.complete c).len = s.len := rfl
@[simp] theorem complete_done (c : ErrCode) : (s.complete c).done = true := rfl
@[simp] theorem complete_err (c : ErrCode) : (s.complete c).err = c := rfl
@[simp] theorem complete_tablesReady (c : ErrCode) : (s.complete c).tablesReady = s.tablesReady := rfl
@[simp] theorem complete_outPtr (c : ErrCode) : (s.complete c).outPtr = s.outPtr := rfl
@[simp] theorem complete_outLen (c : ErrCode) : (s.complete c).outLen = s.outLen := rfl
@[simp] theorem complete_pages (c : ErrCode) : (s.complete c).pages = s.pages := rfl
@[simp] theorem complete_et (c : ErrCode) : (s.complete c).et = s.et := rfl
@[simp] theorem complete_dt (c : ErrCode) : (s.complete c).dt = s.dt := rfl
@[simp] theorem complete_mem (c : ErrCode) : (s.complete c).mem = s.mem := rfl
@[simp] theorem complete_rdata (c : ErrCode) : (s.complete c).rdata = s.rdata := rfl
@[simp] theorem complete_hostQueue (c : ErrCode) : (s.complete c).hostQueue = s.hostQueue := rfl
@[simp] theorem complete_turns (c : ErrCode) : (s.complete c).turns = s.turns := rfl
@[simp] theorem complete_draws (c : ErrCode) : (s.complete c).draws = s.draws := rfl

/-! `State.setOutput` -/

@[simp] theorem setOutput_params (p l : Word) : (s.setOutput p l).params = s.params := rfl
@[simp] theorem setOutput_phase (p l : Word) : (s.setOutput p l).phase = s.phase := rfl
@[simp] theorem setOutput_len (p l : Word) : (s.setOutput p l).len = s.len := rfl
@[simp] theorem setOutput_done (p l : Word) : (s.setOutput p l).done = s.done := rfl
@[simp] theorem setOutput_err (p l : Word) : (s.setOutput p l).err = s.err := rfl
@[simp] theorem setOutput_tablesReady (p l : Word) : (s.setOutput p l).tablesReady = s.tablesReady := rfl
@[simp] theorem setOutput_outPtr (p l : Word) : (s.setOutput p l).outPtr = p := rfl
@[simp] theorem setOutput_outLen (p l : Word) : (s.setOutput p l).outLen = l := rfl
@[simp] theorem setOutput_pages (p l : Word) : (s.setOutput p l).pages = s.pages := rfl
@[simp] theorem setOutput_et (p l : Word) : (s.setOutput p l).et = s.et := rfl
@[simp] theorem setOutput_dt (p l : Word) : (s.setOutput p l).dt = s.dt := rfl
@[simp] theorem setOutput_mem (p l : Word) : (s.setOutput p l).mem = s.mem := rfl
@[simp] theorem setOutput_rdata (p l : Word) : (s.setOutput p l).rdata = s.rdata := rfl
@[simp] theorem setOutput_hostQueue (p l : Word) : (s.setOutput p l).hostQueue = s.hostQueue := rfl
@[simp] theorem setOutput_turns (p l : Word) : (s.setOutput p l).turns = s.turns := rfl
@[simp] theorem setOutput_draws (p l : Word) : (s.setOutput p l).draws = s.draws := rfl

/-! `State.setMem` -/

@[simp] theorem setMem_params (m : Memory) : (s.setMem m).params = s.params := rfl
@[simp] theorem setMem_phase (m : Memory) : (s.setMem m).phase = s.phase := rfl
@[simp] theorem setMem_len (m : Memory) : (s.setMem m).len = s.len := rfl
@[simp] theorem setMem_done (m : Memory) : (s.setMem m).done = s.done := rfl
@[simp] theorem setMem_err (m : Memory) : (s.setMem m).err = s.err := rfl
@[simp] theorem setMem_tablesReady (m : Memory) : (s.setMem m).tablesReady = s.tablesReady := rfl
@[simp] theorem setMem_outPtr (m : Memory) : (s.setMem m).outPtr = s.outPtr := rfl
@[simp] theorem setMem_outLen (m : Memory) : (s.setMem m).outLen = s.outLen := rfl
@[simp] theorem setMem_pages (m : Memory) : (s.setMem m).pages = s.pages := rfl
@[simp] theorem setMem_et (m : Memory) : (s.setMem m).et = s.et := rfl
@[simp] theorem setMem_dt (m : Memory) : (s.setMem m).dt = s.dt := rfl
@[simp] theorem setMem_mem (m : Memory) : (s.setMem m).mem = m := rfl
@[simp] theorem setMem_rdata (m : Memory) : (s.setMem m).rdata = s.rdata := rfl
@[simp] theorem setMem_hostQueue (m : Memory) : (s.setMem m).hostQueue = s.hostQueue := rfl
@[simp] theorem setMem_turns (m : Memory) : (s.setMem m).turns = s.turns := rfl
@[simp] theorem setMem_draws (m : Memory) : (s.setMem m).draws = s.draws := rfl

/-! `State.setTables` -/

@[simp] theorem setTables_params (e : EncTable) (d : DecTable) : (s.setTables e d).params = s.params := rfl
@[simp] theorem setTables_phase (e : EncTable) (d : DecTable) : (s.setTables e d).phase = s.phase := rfl
@[simp] theorem setTables_len (e : EncTable) (d : DecTable) : (s.setTables e d).len = s.len := rfl
@[simp] theorem setTables_done (e : EncTable) (d : DecTable) : (s.setTables e d).done = s.done := rfl
@[simp] theorem setTables_err (e : EncTable) (d : DecTable) : (s.setTables e d).err = s.err := rfl
@[simp] theorem setTables_tablesReady (e : EncTable) (d : DecTable) : (s.setTables e d).tablesReady = s.tablesReady := rfl
@[simp] theorem setTables_outPtr (e : EncTable) (d : DecTable) : (s.setTables e d).outPtr = s.outPtr := rfl
@[simp] theorem setTables_outLen (e : EncTable) (d : DecTable) : (s.setTables e d).outLen = s.outLen := rfl
@[simp] theorem setTables_pages (e : EncTable) (d : DecTable) : (s.setTables e d).pages = s.pages := rfl
@[simp] theorem setTables_et (e : EncTable) (d : DecTable) : (s.setTables e d).et = e := rfl
@[simp] theorem setTables_dt (e : EncTable) (d : DecTable) : (s.setTables e d).dt = d := rfl
@[simp] theorem setTables_mem (e : EncTable) (d : DecTable) : (s.setTables e d).mem = s.mem := rfl
@[simp] theorem setTables_rdata (e : EncTable) (d : DecTable) : (s.setTables e d).rdata = s.rdata := rfl
@[simp] theorem setTables_hostQueue (e : EncTable) (d : DecTable) : (s.setTables e d).hostQueue = s.hostQueue := rfl
@[simp] theorem setTables_turns (e : EncTable) (d : DecTable) : (s.setTables e d).turns = s.turns := rfl
@[simp] theorem setTables_draws (e : EncTable) (d : DecTable) : (s.setTables e d).draws = s.draws := rfl

/-! `State.setLen` -/

@[simp] theorem setLen_params (d : Word) : (s.setLen d).params = s.params := rfl
@[simp] theorem setLen_phase (d : Word) : (s.setLen d).phase = s.phase := rfl
@[simp] theorem setLen_len (d : Word) : (s.setLen d).len = d := rfl
@[simp] theorem setLen_done (d : Word) : (s.setLen d).done = s.done := rfl
@[simp] theorem setLen_err (d : Word) : (s.setLen d).err = s.err := rfl
@[simp] theorem setLen_tablesReady (d : Word) : (s.setLen d).tablesReady = s.tablesReady := rfl
@[simp] theorem setLen_outPtr (d : Word) : (s.setLen d).outPtr = s.outPtr := rfl
@[simp] theorem setLen_outLen (d : Word) : (s.setLen d).outLen = s.outLen := rfl
@[simp] theorem setLen_pages (d : Word) : (s.setLen d).pages = s.pages := rfl
@[simp] theorem setLen_et (d : Word) : (s.setLen d).et = s.et := rfl
@[simp] theorem setLen_dt (d : Word) : (s.setLen d).dt = s.dt := rfl
@[simp] theorem setLen_mem (d : Word) : (s.setLen d).mem = s.mem := rfl
@[simp] theorem setLen_rdata (d : Word) : (s.setLen d).rdata = s.rdata := rfl
@[simp] theorem setLen_hostQueue (d : Word) : (s.setLen d).hostQueue = s.hostQueue := rfl
@[simp] theorem setLen_turns (d : Word) : (s.setLen d).turns = s.turns := rfl
@[simp] theorem setLen_draws (d : Word) : (s.setLen d).draws = s.draws := rfl

/-! `State.growTo` -/

@[simp] theorem growTo_params (n : Nat) : (s.growTo n).params = s.params := rfl
@[simp] theorem growTo_phase (n : Nat) : (s.growTo n).phase = s.phase := rfl
@[simp] theorem growTo_len (n : Nat) : (s.growTo n).len = s.len := rfl
@[simp] theorem growTo_done (n : Nat) : (s.growTo n).done = s.done := rfl
@[simp] theorem growTo_err (n : Nat) : (s.growTo n).err = s.err := rfl
@[simp] theorem growTo_tablesReady (n : Nat) : (s.growTo n).tablesReady = s.tablesReady := rfl
@[simp] theorem growTo_outPtr (n : Nat) : (s.growTo n).outPtr = s.outPtr := rfl
@[simp] theorem growTo_outLen (n : Nat) : (s.growTo n).outLen = s.outLen := rfl
@[simp] theorem growTo_pages (n : Nat) : (s.growTo n).pages = BitVec.ofNat 32 n := rfl
@[simp] theorem growTo_et (n : Nat) : (s.growTo n).et = s.et := rfl
@[simp] theorem growTo_dt (n : Nat) : (s.growTo n).dt = s.dt := rfl
@[simp] theorem growTo_mem (n : Nat) : (s.growTo n).mem = s.mem.clear s.capacity (n * s.params.pageSize.toNat - s.capacity) := rfl
@[simp] theorem growTo_rdata (n : Nat) : (s.growTo n).rdata = s.rdata := rfl
@[simp] theorem growTo_hostQueue (n : Nat) : (s.growTo n).hostQueue = s.hostQueue := rfl
@[simp] theorem growTo_turns (n : Nat) : (s.growTo n).turns = s.turns := rfl
@[simp] theorem growTo_draws (n : Nat) : (s.growTo n).draws = s.draws := rfl

/-! `State.failCodec` -/

@[simp] theorem failCodec_params (c : ErrCode) : (s.failCodec c).params = s.params := rfl
@[simp] theorem failCodec_phase (c : ErrCode) : (s.failCodec c).phase = .idle := rfl
@[simp] theorem failCodec_len (c : ErrCode) : (s.failCodec c).len = s.len := rfl
@[simp] theorem failCodec_done (c : ErrCode) : (s.failCodec c).done = true := rfl
@[simp] theorem failCodec_err (c : ErrCode) : (s.failCodec c).err = c := rfl
@[simp] theorem failCodec_tablesReady (c : ErrCode) : (s.failCodec c).tablesReady = s.tablesReady := rfl
@[simp] theorem failCodec_outPtr (c : ErrCode) : (s.failCodec c).outPtr = 0#32 := rfl
@[simp] theorem failCodec_outLen (c : ErrCode) : (s.failCodec c).outLen = 0#32 := rfl
@[simp] theorem failCodec_pages (c : ErrCode) : (s.failCodec c).pages = s.pages := rfl
@[simp] theorem failCodec_et (c : ErrCode) : (s.failCodec c).et = s.et := rfl
@[simp] theorem failCodec_dt (c : ErrCode) : (s.failCodec c).dt = s.dt := rfl
@[simp] theorem failCodec_mem (c : ErrCode) : (s.failCodec c).mem = s.mem := rfl
@[simp] theorem failCodec_rdata (c : ErrCode) : (s.failCodec c).rdata = s.rdata := rfl
@[simp] theorem failCodec_hostQueue (c : ErrCode) : (s.failCodec c).hostQueue = s.hostQueue := rfl
@[simp] theorem failCodec_turns (c : ErrCode) : (s.failCodec c).turns = s.turns := rfl
@[simp] theorem failCodec_draws (c : ErrCode) : (s.failCodec c).draws = s.draws := rfl

/-! `State.succeedCodec` -/

@[simp] theorem succeedCodec_params (out : List Byte) : (s.succeedCodec out).params = s.params := rfl
@[simp] theorem succeedCodec_phase (out : List Byte) : (s.succeedCodec out).phase = .idle := rfl
@[simp] theorem succeedCodec_len (out : List Byte) : (s.succeedCodec out).len = s.len := rfl
@[simp] theorem succeedCodec_done (out : List Byte) : (s.succeedCodec out).done = true := rfl
@[simp] theorem succeedCodec_err (out : List Byte) : (s.succeedCodec out).err = .none := rfl
@[simp] theorem succeedCodec_tablesReady (out : List Byte) : (s.succeedCodec out).tablesReady = s.tablesReady := rfl
@[simp] theorem succeedCodec_outPtr (out : List Byte) : (s.succeedCodec out).outPtr = BitVec.ofNat 32 s.outBase := rfl
@[simp] theorem succeedCodec_outLen (out : List Byte) : (s.succeedCodec out).outLen = BitVec.ofNat 32 out.length := rfl
@[simp] theorem succeedCodec_pages (out : List Byte) : (s.succeedCodec out).pages = s.pages := rfl
@[simp] theorem succeedCodec_et (out : List Byte) : (s.succeedCodec out).et = s.et := rfl
@[simp] theorem succeedCodec_dt (out : List Byte) : (s.succeedCodec out).dt = s.dt := rfl
@[simp] theorem succeedCodec_mem (out : List Byte) : (s.succeedCodec out).mem = s.mem.writeBytes s.outBase out := rfl
@[simp] theorem succeedCodec_rdata (out : List Byte) : (s.succeedCodec out).rdata = s.rdata := rfl
@[simp] theorem succeedCodec_hostQueue (out : List Byte) : (s.succeedCodec out).hostQueue = s.hostQueue := rfl
@[simp] theorem succeedCodec_turns (out : List Byte) : (s.succeedCodec out).turns = s.turns := rfl
@[simp] theorem succeedCodec_draws (out : List Byte) : (s.succeedCodec out).draws = s.draws := rfl

/-! `State.withHost` -/

@[simp] theorem withHost_params (q : List HostMove) (ts : List Agent) : (s.withHost q ts).params = s.params := rfl
@[simp] theorem withHost_phase (q : List HostMove) (ts : List Agent) : (s.withHost q ts).phase = s.phase := rfl
@[simp] theorem withHost_len (q : List HostMove) (ts : List Agent) : (s.withHost q ts).len = s.len := rfl
@[simp] theorem withHost_done (q : List HostMove) (ts : List Agent) : (s.withHost q ts).done = s.done := rfl
@[simp] theorem withHost_err (q : List HostMove) (ts : List Agent) : (s.withHost q ts).err = s.err := rfl
@[simp] theorem withHost_tablesReady (q : List HostMove) (ts : List Agent) : (s.withHost q ts).tablesReady = s.tablesReady := rfl
@[simp] theorem withHost_outPtr (q : List HostMove) (ts : List Agent) : (s.withHost q ts).outPtr = s.outPtr := rfl
@[simp] theorem withHost_outLen (q : List HostMove) (ts : List Agent) : (s.withHost q ts).outLen = s.outLen := rfl
@[simp] theorem withHost_pages (q : List HostMove) (ts : List Agent) : (s.withHost q ts).pages = s.pages := rfl
@[simp] theorem withHost_et (q : List HostMove) (ts : List Agent) : (s.withHost q ts).et = s.et := rfl
@[simp] theorem withHost_dt (q : List HostMove) (ts : List Agent) : (s.withHost q ts).dt = s.dt := rfl
@[simp] theorem withHost_mem (q : List HostMove) (ts : List Agent) : (s.withHost q ts).mem = s.mem := rfl
@[simp] theorem withHost_rdata (q : List HostMove) (ts : List Agent) : (s.withHost q ts).rdata = s.rdata := rfl
@[simp] theorem withHost_hostQueue (q : List HostMove) (ts : List Agent) : (s.withHost q ts).hostQueue = q := rfl
@[simp] theorem withHost_turns (q : List HostMove) (ts : List Agent) : (s.withHost q ts).turns = ts := rfl
@[simp] theorem withHost_draws (q : List HostMove) (ts : List Agent) : (s.withHost q ts).draws = s.draws := rfl

/-! `State.respond` -/

@[simp] theorem respond_params (v : Word) : (s.respond v).params = s.params := rfl
@[simp] theorem respond_phase (v : Word) : (s.respond v).phase = s.phase := rfl
@[simp] theorem respond_len (v : Word) : (s.respond v).len = s.len := rfl
@[simp] theorem respond_done (v : Word) : (s.respond v).done = s.done := rfl
@[simp] theorem respond_err (v : Word) : (s.respond v).err = s.err := rfl
@[simp] theorem respond_tablesReady (v : Word) : (s.respond v).tablesReady = s.tablesReady := rfl
@[simp] theorem respond_outPtr (v : Word) : (s.respond v).outPtr = s.outPtr := rfl
@[simp] theorem respond_outLen (v : Word) : (s.respond v).outLen = s.outLen := rfl
@[simp] theorem respond_pages (v : Word) : (s.respond v).pages = s.pages := rfl
@[simp] theorem respond_et (v : Word) : (s.respond v).et = s.et := rfl
@[simp] theorem respond_dt (v : Word) : (s.respond v).dt = s.dt := rfl
@[simp] theorem respond_mem (v : Word) : (s.respond v).mem = s.mem := rfl
@[simp] theorem respond_rdata (v : Word) : (s.respond v).rdata = v := rfl
@[simp] theorem respond_hostQueue (v : Word) : (s.respond v).hostQueue = s.hostQueue := rfl
@[simp] theorem respond_turns (v : Word) : (s.respond v).turns = s.turns := rfl
@[simp] theorem respond_draws (v : Word) : (s.respond v).draws = s.draws := rfl

/-! `State.respondFreeByte` -/

@[simp] theorem respondFreeByte_params : s.respondFreeByte.params = s.params := rfl
@[simp] theorem respondFreeByte_phase : s.respondFreeByte.phase = s.phase := rfl
@[simp] theorem respondFreeByte_len : s.respondFreeByte.len = s.len := rfl
@[simp] theorem respondFreeByte_done : s.respondFreeByte.done = s.done := rfl
@[simp] theorem respondFreeByte_err : s.respondFreeByte.err = s.err := rfl
@[simp] theorem respondFreeByte_tablesReady : s.respondFreeByte.tablesReady = s.tablesReady := rfl
@[simp] theorem respondFreeByte_outPtr : s.respondFreeByte.outPtr = s.outPtr := rfl
@[simp] theorem respondFreeByte_outLen : s.respondFreeByte.outLen = s.outLen := rfl
@[simp] theorem respondFreeByte_pages : s.respondFreeByte.pages = s.pages := rfl
@[simp] theorem respondFreeByte_et : s.respondFreeByte.et = s.et := rfl
@[simp] theorem respondFreeByte_dt : s.respondFreeByte.dt = s.dt := rfl
@[simp] theorem respondFreeByte_mem : s.respondFreeByte.mem = s.mem := rfl
@[simp] theorem respondFreeByte_rdata : s.respondFreeByte.rdata = (Config.freeByte s.draws).setWidth 32 := rfl
@[simp] theorem respondFreeByte_hostQueue : s.respondFreeByte.hostQueue = s.hostQueue := rfl
@[simp] theorem respondFreeByte_turns : s.respondFreeByte.turns = s.turns := rfl
@[simp] theorem respondFreeByte_draws : s.respondFreeByte.draws = s.draws + 1 := rfl

/-! `State.respondFreeWord` -/

@[simp] theorem respondFreeWord_params : s.respondFreeWord.params = s.params := rfl
@[simp] theorem respondFreeWord_phase : s.respondFreeWord.phase = s.phase := rfl
@[simp] theorem respondFreeWord_len : s.respondFreeWord.len = s.len := rfl
@[simp] theorem respondFreeWord_done : s.respondFreeWord.done = s.done := rfl
@[simp] theorem respondFreeWord_err : s.respondFreeWord.err = s.err := rfl
@[simp] theorem respondFreeWord_tablesReady : s.respondFreeWord.tablesReady = s.tablesReady := rfl
@[simp] theorem respondFreeWord_outPtr : s.respondFreeWord.outPtr = s.outPtr := rfl
@[simp] theorem respondFreeWord_outLen : s.respondFreeWord.outLen = s.outLen := rfl
@[simp] theorem respondFreeWord_pages : s.respondFreeWord.pages = s.pages := rfl
@[simp] theorem respondFreeWord_et : s.respondFreeWord.et = s.et := rfl
@[simp] theorem respondFreeWord_dt : s.respondFreeWord.dt = s.dt := rfl
@[simp] theorem respondFreeWord_mem : s.respondFreeWord.mem = s.mem := rfl
@[simp] theorem respondFreeWord_rdata : s.respondFreeWord.rdata = Config.freeWord s.draws := rfl
@[simp] theorem respondFreeWord_hostQueue : s.respondFreeWord.hostQueue = s.hostQueue := rfl
@[simp] theorem respondFreeWord_turns : s.respondFreeWord.turns = s.turns := rfl
@[simp] theorem respondFreeWord_draws : s.respondFreeWord.draws = s.draws + 1 := rfl

/-! `State.hardReset` -/

@[simp] theorem hardReset_params : s.hardReset.params = s.params := rfl
@[simp] theorem hardReset_phase : s.hardReset.phase = .idle := rfl
@[simp] theorem hardReset_len : s.hardReset.len = 0#32 := rfl
@[simp] theorem hardReset_done : s.hardReset.done = false := rfl
@[simp] theorem hardReset_err : s.hardReset.err = .none := rfl
@[simp] theorem hardReset_tablesReady : s.hardReset.tablesReady = true := rfl
@[simp] theorem hardReset_outPtr : s.hardReset.outPtr = 0#32 := rfl
@[simp] theorem hardReset_outLen : s.hardReset.outLen = 0#32 := rfl
@[simp] theorem hardReset_pages : s.hardReset.pages = s.params.initialPages := rfl
@[simp] theorem hardReset_et : s.hardReset.et = buildEnc := rfl
@[simp] theorem hardReset_dt : s.hardReset.dt = buildDec buildEnc := rfl
@[simp] theorem hardReset_mem : s.hardReset.mem = [] := rfl
@[simp] theorem hardReset_rdata : s.hardReset.rdata = s.rdata := rfl
@[simp] theorem hardReset_hostQueue : s.hardReset.hostQueue = s.hostQueue := rfl
@[simp] theorem hardReset_turns : s.hardReset.turns = s.turns := rfl
@[simp] theorem hardReset_draws : s.hardReset.draws = s.draws := rfl

/-! The derived views -/

@[simp] theorem acceptCommand_inBase (op : Command) : (s.acceptCommand op).inBase = s.inBase := rfl
@[simp] theorem acceptCommand_busy (op : Command) : (s.acceptCommand op).busy = true := rfl
@[simp] theorem acceptCommand_operand (op : Command) : (s.acceptCommand op).operand = s.len.toNat := rfl
@[simp] theorem acceptCommand_capacity (op : Command) : (s.acceptCommand op).capacity = s.capacity := rfl
@[simp] theorem complete_inBase (c : ErrCode) : (s.complete c).inBase = s.inBase := rfl
@[simp] theorem complete_busy (c : ErrCode) : (s.complete c).busy = false := rfl
@[simp] theorem complete_capacity (c : ErrCode) : (s.complete c).capacity = s.capacity := rfl
@[simp] theorem setOutput_inBase (p l : Word) : (s.setOutput p l).inBase = s.inBase := rfl
@[simp] theorem setOutput_operand (p l : Word) : (s.setOutput p l).operand = s.operand := rfl
@[simp] theorem setOutput_outBase (p l : Word) : (s.setOutput p l).outBase = s.outBase := rfl
@[simp] theorem setOutput_busy (p l : Word) : (s.setOutput p l).busy = s.busy := rfl
@[simp] theorem setOutput_capacity (p l : Word) : (s.setOutput p l).capacity = s.capacity := rfl
@[simp] theorem setMem_inBase (m : Memory) : (s.setMem m).inBase = s.inBase := rfl
@[simp] theorem setMem_operand (m : Memory) : (s.setMem m).operand = s.operand := rfl
@[simp] theorem setMem_outBase (m : Memory) : (s.setMem m).outBase = s.outBase := rfl
@[simp] theorem setMem_busy (m : Memory) : (s.setMem m).busy = s.busy := rfl
@[simp] theorem setMem_capacity (m : Memory) : (s.setMem m).capacity = s.capacity := rfl
@[simp] theorem setTables_inBase (e : EncTable) (d : DecTable) : (s.setTables e d).inBase = s.inBase := rfl
@[simp] theorem setTables_operand (e : EncTable) (d : DecTable) : (s.setTables e d).operand = s.operand := rfl
@[simp] theorem setTables_outBase (e : EncTable) (d : DecTable) : (s.setTables e d).outBase = s.outBase := rfl
@[simp] theorem setTables_busy (e : EncTable) (d : DecTable) : (s.setTables e d).busy = s.busy := rfl
@[simp] theorem setTables_capacity (e : EncTable) (d : DecTable) : (s.setTables e d).capacity = s.capacity := rfl
@[simp] theorem setLen_inBase (d : Word) : (s.setLen d).inBase = s.inBase := rfl
@[simp] theorem setLen_busy (d : Word) : (s.setLen d).busy = s.busy := rfl
@[simp] theorem setLen_capacity (d : Word) : (s.setLen d).capacity = s.capacity := rfl
@[simp] theorem growTo_inBase (n : Nat) : (s.growTo n).inBase = s.inBase := rfl
@[simp] theorem growTo_operand (n : Nat) : (s.growTo n).operand = s.operand := rfl
@[simp] theorem growTo_outBase (n : Nat) : (s.growTo n).outBase = s.outBase := rfl
@[simp] theorem growTo_busy (n : Nat) : (s.growTo n).busy = s.busy := rfl
@[simp] theorem failCodec_inBase (c : ErrCode) : (s.failCodec c).inBase = s.inBase := rfl
@[simp] theorem failCodec_busy (c : ErrCode) : (s.failCodec c).busy = false := rfl
@[simp] theorem failCodec_capacity (c : ErrCode) : (s.failCodec c).capacity = s.capacity := rfl
@[simp] theorem succeedCodec_inBase (out : List Byte) : (s.succeedCodec out).inBase = s.inBase := rfl
@[simp] theorem succeedCodec_busy (out : List Byte) : (s.succeedCodec out).busy = false := rfl
@[simp] theorem succeedCodec_capacity (out : List Byte) : (s.succeedCodec out).capacity = s.capacity := rfl
@[simp] theorem withHost_inBase (q : List HostMove) (ts : List Agent) : (s.withHost q ts).inBase = s.inBase := rfl
@[simp] theorem withHost_operand (q : List HostMove) (ts : List Agent) : (s.withHost q ts).operand = s.operand := rfl
@[simp] theorem withHost_outBase (q : List HostMove) (ts : List Agent) : (s.withHost q ts).outBase = s.outBase := rfl
@[simp] theorem withHost_busy (q : List HostMove) (ts : List Agent) : (s.withHost q ts).busy = s.busy := rfl
@[simp] theorem withHost_capacity (q : List HostMove) (ts : List Agent) : (s.withHost q ts).capacity = s.capacity := rfl
@[simp] theorem respond_inBase (v : Word) : (s.respond v).inBase = s.inBase := rfl
@[simp] theorem respond_operand (v : Word) : (s.respond v).operand = s.operand := rfl
@[simp] theorem respond_outBase (v : Word) : (s.respond v).outBase = s.outBase := rfl
@[simp] theorem respond_busy (v : Word) : (s.respond v).busy = s.busy := rfl
@[simp] theorem respond_capacity (v : Word) : (s.respond v).capacity = s.capacity := rfl
@[simp] theorem respondFreeByte_inBase : s.respondFreeByte.inBase = s.inBase := rfl
@[simp] theorem respondFreeByte_operand : s.respondFreeByte.operand = s.operand := rfl
@[simp] theorem respondFreeByte_outBase : s.respondFreeByte.outBase = s.outBase := rfl
@[simp] theorem respondFreeByte_busy : s.respondFreeByte.busy = s.busy := rfl
@[simp] theorem respondFreeByte_capacity : s.respondFreeByte.capacity = s.capacity := rfl
@[simp] theorem respondFreeWord_inBase : s.respondFreeWord.inBase = s.inBase := rfl
@[simp] theorem respondFreeWord_operand : s.respondFreeWord.operand = s.operand := rfl
@[simp] theorem respondFreeWord_outBase : s.respondFreeWord.outBase = s.outBase := rfl
@[simp] theorem respondFreeWord_busy : s.respondFreeWord.busy = s.busy := rfl
@[simp] theorem respondFreeWord_capacity : s.respondFreeWord.capacity = s.capacity := rfl
@[simp] theorem hardReset_inBase : s.hardReset.inBase = s.inBase := rfl
@[simp] theorem hardReset_busy : s.hardReset.busy = false := rfl

/-! The phase and the operand -/

@[simp] theorem withHost_self : s.withHost s.hostQueue s.turns = s := rfl

@[simp] theorem withHost_statusWord (q : List HostMove) (ts : List Agent) : (s.withHost q ts).statusWord = s.statusWord := rfl

theorem busy_eq_false_iff : s.busy = false ↔ s.phase = .idle := by
  unfold State.busy; cases s.phase <;> simp

theorem busy_eq_true_iff : s.busy = true ↔ ∃ op l, s.phase = .busy op l := by
  unfold State.busy; cases s.phase <;> simp

theorem operand_of_busy {op : Command} {l : Word} (h : s.phase = .busy op l) : s.operand = l.toNat := by
  simp [State.operand, h]

theorem operand_lt : s.operand < 2 ^ 32 := by
  unfold State.operand; cases s.phase <;> exact BitVec.isLt _

/-! The state after power-on -/

@[simp] theorem powerOn_params (p : Params) : (State.powerOn p).params = p := rfl
@[simp] theorem powerOn_phase (p : Params) : (State.powerOn p).phase = .idle := rfl
@[simp] theorem powerOn_pages (p : Params) : (State.powerOn p).pages = p.initialPages := rfl
@[simp] theorem powerOn_mem (p : Params) : (State.powerOn p).mem = [] := rfl
@[simp] theorem powerOn_et (p : Params) : (State.powerOn p).et = buildEnc := rfl
@[simp] theorem powerOn_dt (p : Params) : (State.powerOn p).dt = buildDec buildEnc := rfl

end Sys2Proof.Machine
end

