-- ==== Sys2Proof/Laws/Growth.lean ====
section
/-! SUPPORT. What the growth step can do (43_growth.md R190 to R199), once for all its users. -/

namespace Sys2Proof.Machine

/-- `ceil(a / b)` bounds `a` from above. -/
theorem le_divUp_mul (a : Nat) {b : Nat} (hb : 0 < b) : a ≤ divUp a b * b := by
  unfold divUp
  have h := Nat.div_add_mod (a + b - 1) b
  have h2 := Nat.mod_lt (a + b - 1) hb
  rw [Nat.mul_comm] at h
  omega

/-- `ceil(a / b)` is the least such bound. -/
theorem divUp_le_iff (a : Nat) {b : Nat} (hb : 0 < b) (k : Nat) : divUp a b ≤ k ↔ a ≤ k * b := by
  unfold divUp
  rw [← Nat.lt_succ_iff, Nat.div_lt_iff_lt_mul hb, Nat.succ_mul]
  omega

/-- The growth step answers a state in one of two ways: the region already suffices, or it grows to `need` pages. -/
theorem grow_cases {s t : State} {proj : Nat} (h : s.grow proj = some t) :
    (s.pagesNeeded proj ≤ s.pages.toNat ∧ t = s) ∨
      (s.pages.toNat < s.pagesNeeded proj ∧ s.pagesNeeded proj ≤ s.params.maxPages.toNat ∧
        t = s.growTo (s.pagesNeeded proj)) := by
  unfold State.grow at h
  split_ifs at h with h1 h2
  · exact Or.inl ⟨h1, (Option.some.inj h).symm⟩
  · exact Or.inr ⟨by omega, by omega, (Option.some.inj h).symm⟩

/-- It raises `OutOfMemory` exactly when `need` passes both the region and the limit (R190, R196). -/
theorem grow_eq_none (s : State) (proj : Nat) :
    s.grow proj = none ↔ s.pages.toNat < s.pagesNeeded proj ∧ s.params.maxPages.toNat < s.pagesNeeded proj := by
  unfold State.grow
  split_ifs with h1 h2 <;> simp <;> omega

/-- The growth step writes `PAGES` and the region's new locations, and nothing else. -/
theorem grow_frame {s t : State} {proj : Nat} (h : s.grow proj = some t) :
    t.params = s.params ∧ t.phase = s.phase ∧ t.len = s.len ∧ t.done = s.done ∧ t.err = s.err ∧
      t.tablesReady = s.tablesReady ∧ t.outPtr = s.outPtr ∧ t.outLen = s.outLen ∧ t.et = s.et ∧ t.dt = s.dt ∧
      t.rdata = s.rdata ∧ t.hostQueue = s.hostQueue ∧ t.turns = s.turns ∧ t.draws = s.draws := by
  rcases grow_cases h with ⟨-, rfl⟩ | ⟨-, -, rfl⟩ <;> simp

theorem grow_operand {s t : State} {proj : Nat} (h : s.grow proj = some t) : t.operand = s.operand := by
  rcases grow_cases h with ⟨-, rfl⟩ | ⟨-, -, rfl⟩ <;> simp

theorem grow_inBase {s t : State} {proj : Nat} (h : s.grow proj = some t) : t.inBase = s.inBase := by
  rcases grow_cases h with ⟨-, rfl⟩ | ⟨-, -, rfl⟩ <;> simp

theorem grow_outBase {s t : State} {proj : Nat} (h : s.grow proj = some t) : t.outBase = s.outBase := by
  unfold State.outBase; rw [grow_inBase h, grow_operand h]

theorem params_pos {p : Params} (hp : p.Valid) : 0 < p.pageSize.toNat := by
  obtain ⟨k, -, hk⟩ := hp.pageSize_pow2
  rw [hk]; exact Nat.two_pow_pos k

/-- `PAGES` after a growth step is the larger of its old value and `need` (R190, R195). -/
theorem grow_pages {s t : State} {proj : Nat} (h : s.grow proj = some t) :
    t.pages.toNat = max s.pages.toNat (s.pagesNeeded proj) := by
  rcases grow_cases h with ⟨h1, rfl⟩ | ⟨h1, h2, rfl⟩
  · omega
  · rw [growTo_pages, BitVec.toNat_ofNat, Nat.mod_eq_of_lt (Nat.lt_of_le_of_lt h2 (BitVec.isLt _))]; omega

/-- Sufficiency (R197): after a successful growth step the projection fits behind the header. -/
theorem grow_suffices {s t : State} {proj : Nat} (hp : 0 < s.params.pageSize.toNat) (h : s.grow proj = some t) :
    s.params.reservedSize.toNat + proj ≤ t.capacity := by
  have hpg := grow_pages h
  have hpar : t.params = s.params := (grow_frame h).1
  have hle := le_divUp_mul (s.params.reservedSize.toNat + proj) hp
  unfold State.capacity
  rw [hpar, hpg]
  refine Nat.le_trans hle (Nat.mul_le_mul_right _ ?_)
  exact Nat.le_max_right _ _

/-- Contents are kept below the old capacity, and the new locations are `UNWRITTEN` (R198). -/
theorem grow_read {s t : State} {proj : Nat} (h : s.grow proj = some t) (a : Nat) :
    t.mem.read a = if s.capacity ≤ a ∧ a < t.capacity then none else s.mem.read a := by
  rcases grow_cases h with ⟨-, rfl⟩ | ⟨h1, h2, rfl⟩
  · rw [if_neg (by omega)]
  · have hcap : (s.growTo (s.pagesNeeded proj)).capacity = s.pagesNeeded proj * s.params.pageSize.toNat := by
      have := grow_pages h
      rw [Nat.max_eq_right (by omega)] at this
      unfold State.capacity; rw [this, growTo_params]
    have hle : s.capacity ≤ s.pagesNeeded proj * s.params.pageSize.toNat := Nat.mul_le_mul_right _ (by omega)
    rw [hcap, growTo_mem, read_clear]
    congr 1
    apply propext; constructor <;> intro h <;> omega

theorem grow_capacity_le {s t : State} {proj : Nat} (h : s.grow proj = some t) : s.capacity ≤ t.capacity := by
  unfold State.capacity
  rw [(grow_frame h).1, grow_pages h]
  exact Nat.mul_le_mul_right _ (Nat.le_max_left _ _)

/-- The growth step keeps the region's data canonical and lists no new location. -/
theorem grow_mem {s t : State} {proj : Nat} (h : s.grow proj = some t) :
    (s.mem.wf → t.mem.wf) ∧ ∀ c ∈ t.mem, c ∈ s.mem := by
  rcases grow_cases h with ⟨-, rfl⟩ | ⟨-, -, rfl⟩
  · exact ⟨id, fun _ h => h⟩
  · exact ⟨fun hw => clear_wf hw _ _, fun c hc => mem_clear hc⟩

/-- The encode projection covers input and output (R191); so does the decode projection (R192, R197). -/
theorem projEnc_covers (n : Nat) : n + encLength n ≤ projEnc n := Nat.le_max_right _ _

theorem projDec_covers (l : Nat) : l + 5 * (l / 8) ≤ projDec l := by
  unfold projDec; omega

/-- A growth step keeps the invariant. -/
theorem grow_inv {s t : State} {proj : Nat} (hi : s.Inv) (h : s.grow proj = some t) : t.Inv := by
  obtain ⟨h1, h2, -, h4, h5, h6, h7, h8, h9, h10, -⟩ := grow_frame h
  have hb : t.busy = s.busy := by simp [State.busy, h2]
  have hcap := grow_capacity_le h
  have hpg := grow_pages h
  refine ⟨h1 ▸ hi.params_valid, ?_, ?_, (grow_mem h).1 hi.mem_wf, ?_, h9 ▸ hi.et_built, h10 ▸ hi.dt_built,
    h6 ▸ hi.ready, ?_, ?_, ?_⟩
  · rw [h1, hpg]; exact Nat.le_trans hi.pages_ge (Nat.le_max_left _ _)
  · rw [h1, hpg]
    rcases grow_cases h with ⟨hle, -⟩ | ⟨-, hle, -⟩ <;> have := hi.pages_le <;> omega
  · intro c hc
    have := hi.mem_inside c ((grow_mem h).2 c hc)
    rw [grow_inBase h]; omega
  · rw [hb, h4]; exact hi.busy_not_done
  · rw [h4, h5]; exact hi.code_done
  · rw [h7, h8]; exact Nat.le_trans hi.out_inside hcap

/-! The input area, and growth under the invariant -/

/-- A written input area is read as its bytes (20_memory.md R51). -/
theorem readInput_eq {s : State} {n : Nat} {b : Nat → Byte} (hn : s.operand = n) (h : s.InputIs n b) :
    s.readInput = some ((List.range n).map b) := by
  unfold State.readInput
  rw [hn, readBytes_eq_some]
  refine ⟨by simp, fun i hi => ?_⟩
  rw [List.getElem?_map, List.getElem?_range hi]; exact h i hi

/-- A growth step that fits answers a state (43_growth.md R190). -/
theorem fits_grow {s : State} {proj : Nat} (h : s.Fits proj) : ∃ t, s.grow proj = some t := by
  cases hg : s.grow proj with
  | some t => exact ⟨t, rfl⟩
  | none => have := (grow_eq_none s proj).1 hg; unfold State.Fits at h; omega

/-- Under the invariant nothing is listed past the capacity. -/
theorem inv_read_ge {s : State} (hi : s.Inv) {a : Nat} (h : s.capacity ≤ a) : s.mem.read a = none := by
  cases hr : s.mem.read a with
  | none => rfl
  | some b => have := hi.mem_inside _ (mem_of_read hr); simp at this; omega

/-- Under the invariant a growth step changes the content of no location (R198). -/
theorem grow_read_inv {s t : State} {proj : Nat} (hi : s.Inv) (h : s.grow proj = some t) (a : Nat) : t.mem.read a = s.mem.read a := by
  rw [grow_read h]; split_ifs with h1
  · exact (inv_read_ge hi h1.1).symm
  · rfl

/-- A growth step keeps the input area. -/
theorem inputIs_grow {s t : State} {proj n : Nat} {b} (hi : s.Inv) (h : s.grow proj = some t) (hb : s.InputIs n b) : t.InputIs n b := by
  intro i h2
  unfold State.byteAt
  rw [grow_inBase h, grow_read_inv hi h]; exact hb i h2

/-- The region is at most 2^32 bytes (00_scope.md R7). -/
theorem capacity_le {s : State} (h : s.Inv) : s.capacity ≤ 2^32 :=
  Nat.le_trans (Nat.mul_le_mul_right _ h.pages_le) h.params_valid.space_le

/-- An `UNWRITTEN` input byte is noticed (20_memory.md R65). -/
theorem unwritten_readInput {s : State} {n : Nat} (hn : s.operand = n) (h : ∃ i, i < n ∧ s.byteAt (s.inBase + i) = none) : s.readInput = none := by
  unfold State.readInput; rw [readBytes_eq_none, hn]; exact h

/-- An input area with every byte written is read. -/
theorem written_readInput {s : State} {n : Nat} (hn : s.operand = n) (h : ∀ i, i < n → s.byteAt (s.inBase + i) ≠ none) : ∃ bs, s.readInput = some bs := by
  cases hr : s.readInput with
  | some bs => exact ⟨bs, rfl⟩
  | none =>
    unfold State.readInput at hr; rw [readBytes_eq_none, hn] at hr
    obtain ⟨i, h1, h2⟩ := hr
    exact absurd h2 (h i h1)

/-- A growth step that does not fit raises `OutOfMemory` (43_growth.md R196). -/
theorem notfits_grow {s : State} {proj} (hi : s.pages.toNat ≤ s.params.maxPages.toNat) (h : ¬ s.Fits proj) : s.grow proj = none := by
  rw [grow_eq_none]; unfold State.Fits at h; omega

end Sys2Proof.Machine
end

