-- ==== Sys2Proof/Laws/Tables.lean ====
section
/-! SUPPORT. The contents of the built tables entry by entry (40_tables.md R100, R101, R103). -/

namespace Sys2Proof.Machine

/-- `ET[i]` as the function of R100. -/
theorem encLookup_buildEnc : ∀ v : Quint, encLookup buildEnc v =
    if v.toNat ≤ 25 then BitVec.ofNat 8 (0x41 + v.toNat) else BitVec.ofNat 8 (0x32 + (v.toNat - 26)) := by
  decide

/-- The value a character stands for, by the ranges of R101. -/
def decValue (c : Byte) : Option Quint :=
  if 0x32 ≤ c.toNat ∧ c.toNat ≤ 0x37 then some (BitVec.ofNat 5 (c.toNat - 0x32 + 26))
  else if 0x41 ≤ c.toNat ∧ c.toNat ≤ 0x5A then some (BitVec.ofNat 5 (c.toNat - 0x41))
  else if 0x61 ≤ c.toNat ∧ c.toNat ≤ 0x7A then some (BitVec.ofNat 5 (c.toNat - 0x61))
  else none

/-- `buildDec buildEnc`, entry by entry, is the table of R101. -/
theorem decLookup_buildDec (c : Byte) : decLookup (buildDec buildEnc) c = decValue c := by
  have h : (List.range 256).all (fun n =>
      decide (decLookup (buildDec buildEnc) (BitVec.ofNat 8 n) = decValue (BitVec.ofNat 8 n))) = true := by decide +kernel
  have := List.all_eq_true.1 h c.toNat (List.mem_range.2 c.isLt)
  simpa using this

/-- `DT[ET[i]] = i` (R103). -/
theorem decLookup_encLookup (v : Quint) : decLookup (buildDec buildEnc) (encLookup buildEnc v) = some v := by
  rw [decLookup_buildDec]
  revert v
  decide

/-- `DT[0x3D] = INVALID` (R103). -/
theorem decLookup_padding : decLookup (buildDec buildEnc) 0x3D#8 = none := by
  rw [decLookup_buildDec]; decide

/-- No encoded character is `'='` (41_encode.md R127). -/
theorem encLookup_ne_padding : ∀ v : Quint, encLookup buildEnc v ≠ 0x3D#8 := by
  decide

end Sys2Proof.Machine
end

