-- ==== Sys2Proof/Laws/Codec.lean ====
section
/-! SUPPORT. The lengths of what the packing and the unpacking produce (41_encode.md R126, 42_decode.md R158). -/

namespace Sys2Proof.Machine

theorem charsOf_le (r : Nat) : charsOf r ≤ 8 := by
  unfold charsOf; split <;> omega

/-- Every group, full or partial, occupies 8 output characters (R123). -/
@[simp] theorem packGroup_length (et : EncTable) (r : Nat) (bs : List Byte) : (packGroup et (charsOf r) bs).length = 8 := by
  have := charsOf_le r
  simp [packGroup]; omega

@[simp] theorem packGroup_eight_length (et : EncTable) (bs : List Byte) : (packGroup et 8 bs).length = 8 := by
  simp [packGroup]

@[simp] theorem packFull_length (et : EncTable) (g : Nat) (bs : List Byte) : (packFull et g bs).length = 8 * g := by
  induction g generalizing bs with
  | zero => rfl
  | succ g ih => rw [packFull, List.length_append, ih, packGroup_eight_length]; omega

/-- The output length law of `ENCODE` (R126). -/
@[simp] theorem encodeBytes_length (et : EncTable) (bs : List Byte) : (encodeBytes et bs).length = encLength bs.length := by
  unfold encodeBytes encLength divUp
  rw [List.length_append, packFull_length]
  split_ifs with h
  · simp; omega
  · rw [packGroup_length]; omega

@[simp] theorem emitBytes_length (v : Group) (b : Nat) : (emitBytes v b).length = b := by
  simp [emitBytes]

theorem padRun_le (cs : List Byte) : padRun cs ≤ cs.length := by
  unfold padRun
  have := (List.takeWhile_sublist (fun c => c == padChar) (l := cs.reverse)).length_le
  simpa using this

/-- A group that is accepted: its padding run is legal, a padded one is the last, its data characters are in the alphabet, and
its bytes are the head of the 40-bit value (R153 to R156). -/
theorem unpackGroup_eq_some {dt : DecTable} {last : Bool} {cs out : List Byte} (h : unpackGroup dt last cs = some out) :
    legalRun (padRun cs) = true ∧ (padRun cs ≠ 0 → last = true) ∧
      ∃ vs, lookupAll dt (cs.take (8 - padRun cs)) = some vs ∧
        out = emitBytes (groupOfQuints vs) (bytesOf (8 - padRun cs)) := by
  unfold unpackGroup at h
  split_ifs at h with h1 h2
  cases hv : lookupAll dt (cs.take (8 - padRun cs)) with
  | none => simp [hv] at h
  | some vs =>
    simp only [hv, Option.some.injEq] at h
    refine ⟨by simpa using h1, fun hp => ?_, vs, rfl, h.symm⟩
    by_contra hl
    exact h2 ⟨hp, by simpa using hl⟩

theorem unpackGroup_length_le {dt : DecTable} {last : Bool} {cs out : List Byte} (h : unpackGroup dt last cs = some out) :
    out.length ≤ 5 := by
  obtain ⟨-, -, vs, -, rfl⟩ := unpackGroup_eq_some h
  rw [emitBytes_length, bytesOf]; omega

theorem unpackGroups_succ (dt : DecTable) (g : Nat) (cs : List Byte) :
    unpackGroups dt (g + 1) cs =
      match unpackGroup dt (g == 0) (cs.take 8), unpackGroups dt g (cs.drop 8) with
      | some b, some bs => some (b ++ bs)
      | _, _ => none := rfl

/-- All groups are accepted exactly when each one is, and the output is their bytes in order (R150). -/
theorem unpackGroups_succ_eq_some {dt : DecTable} {g : Nat} {cs out : List Byte} :
    unpackGroups dt (g + 1) cs = some out ↔
      ∃ b bs, unpackGroup dt (g == 0) (cs.take 8) = some b ∧ unpackGroups dt g (cs.drop 8) = some bs ∧ out = b ++ bs := by
  rw [unpackGroups_succ]
  cases unpackGroup dt (g == 0) (cs.take 8) <;> cases unpackGroups dt g (cs.drop 8) <;> simp [eq_comm]

/-- `DECODE` writes at most 5 bytes for each group (R158, R160). -/
theorem unpackGroups_length_le {dt : DecTable} {g : Nat} {cs out : List Byte} (h : unpackGroups dt g cs = some out) :
    out.length ≤ 5 * g := by
  induction g generalizing cs out with
  | zero => cases h; simp
  | succ g ih =>
    obtain ⟨b, bs, hb, hbs, rfl⟩ := unpackGroups_succ_eq_some.1 h
    have := unpackGroup_length_le hb
    have := ih hbs
    rw [List.length_append]; omega

theorem decodeChars_length_le {dt : DecTable} {cs out : List Byte} (h : decodeChars dt cs = some out) :
    out.length ≤ decodeReach cs.length :=
  unpackGroups_length_le h

/-! Character by character and bit by bit -/

/-- `CHARS(r) = ceil(8r / 5)` (R124). -/
theorem charsOf_eq {r : Nat} (h1 : 1 ≤ r) (h5 : r ≤ 5) : charsOf r = (8 * r + 4) / 5 := by
  interval_cases r <;> rfl

/-- Bit `39 - x` of a group value is bit `x` of its bytes, the first byte's bit 7 first (20_memory.md R53). -/
theorem groupOfBytes_bit (bs : List Byte) (x : Nat) (hx : x < 40) :
    (groupOfBytes bs).getLsbD (39 - x) = (bs.getD (x / 8) 0#8).getLsbD (7 - x % 8) := by
  unfold groupOfBytes
  simp only [BitVec.getLsbD_append]
  interval_cases x <;> rfl

/-- Bit `4 - j` of window `k` is bit `5k + j` of the group, from the top (R122). -/
theorem window_bit (v : Group) (k j : Nat) (hk : k < 8) (hj : j < 5) :
    (window v k).getLsbD (4 - j) = v.getLsbD (39 - (5 * k + j)) := by
  unfold window
  rw [BitVec.getLsbD_extractLsb']
  have : 4 - j < 5 := by omega
  simp only [this, decide_true, Bool.true_and]
  congr 1; omega

/-- The characters of one group (R122, R123). -/
theorem packGroup_get (et : EncTable) (c : Nat) (bs : List Byte) (k : Nat) (hk : k < 8) :
    (packGroup et c bs)[k]? =
      if k < c then some (encLookup et (window (groupOfBytes bs) k)) else if k < c + (8 - c) then some padChar else none := by
  unfold packGroup
  rw [List.getElem?_append]
  simp only [List.length_map, List.length_range, List.getElem?_map, List.getElem?_replicate]
  split_ifs with h1 h2 h3 h4
  · simp [h1]
  all_goals first | rfl | (exfalso; omega)

/-- Character `m` of the full groups is window `m mod 8` of group `m div 8` (R121, R122). -/
theorem packFull_get (et : EncTable) (g : Nat) (bs : List Byte) (m : Nat) (hm : m < 8 * g) :
    (packFull et g bs)[m]? =
      some (encLookup et (window (groupOfBytes ((bs.drop (5 * (m / 8))).take 5)) (m % 8))) := by
  induction g generalizing bs m with
  | zero => omega
  | succ g ih =>
    rw [packFull, List.getElem?_append, packGroup_eight_length]
    split_ifs with h
    · have h0 : m / 8 = 0 := by omega
      rw [packGroup_get _ _ _ _ h, if_pos h, h0, Nat.mod_eq_of_lt h]; rfl
    · rw [ih _ _ (by omega)]
      have h1 : m / 8 = (m - 8) / 8 + 1 := by omega
      have h2 : (m - 8) % 8 = m % 8 := by omega
      rw [h1, h2, List.drop_drop]
      congr 6; omega

/-- Two 5-bit values with the same bits, counted from the top, are equal. -/
theorem quint_ext {v w : Quint} (h : ∀ j, j < 5 → v.getLsbD (4 - j) = w.getLsbD (4 - j)) : v = w := by
  apply BitVec.eq_of_getLsbD_eq
  intro i hi
  have := h (4 - i) (by omega)
  rwa [show 4 - (4 - i) = i by omega] at this

/-- Character `m` of an encoded input: a window of its group, or `'='` (R121 to R123, R126). -/
theorem encodeBytes_get (et : EncTable) (bs : List Byte) (m : Nat) (hm : m < encLength bs.length) :
    (encodeBytes et bs)[m]? =
      if m < (8 * bs.length + 4) / 5 then
        some (encLookup et (window (groupOfBytes ((bs.drop (5 * (m / 8))).take 5)) (m % 8)))
      else some padChar := by
  unfold encLength divUp at hm
  unfold encodeBytes
  rw [List.getElem?_append, packFull_length]
  split_ifs with h1 h2 h3 h4 h5
  · exact packFull_get _ _ _ _ h1
  · omega
  · omega
  · omega
  · have hc : charsOf (bs.length % 5) = (8 * (bs.length % 5) + 4) / 5 := charsOf_eq (by omega) (by omega)
    rw [packGroup_get _ _ _ _ (by omega), if_pos (by rw [hc]; omega)]
    have h6 : m / 8 = bs.length / 5 := by omega
    rw [h6, show m - 8 * (bs.length / 5) = m % 8 by omega, List.take_of_length_le (l := bs.drop (5 * (bs.length / 5)))]
    simp; omega
  · have hc : charsOf (bs.length % 5) = (8 * (bs.length % 5) + 4) / 5 := charsOf_eq (by omega) (by omega)
    rw [packGroup_get _ _ _ _ (by omega), if_neg (by rw [hc]; omega), if_pos (by omega)]

/-- The windows of the groups are the windows of the whole input's bit stream (20_memory.md R53). -/
theorem window_stream (bs : List Byte) (b : Nat → Byte) (hb : ∀ i, i < bs.length → bs[i]? = some (b i)) (m j : Nat) (hj : j < 5) :
    (window (groupOfBytes ((bs.drop (5 * (m / 8))).take 5)) (m % 8)).getLsbD (4 - j) = byteStreamBit b bs.length (5 * m + j) := by
  rw [window_bit _ _ _ (by omega) hj, groupOfBytes_bit _ _ (by omega)]
  have e1 : (5 * m + j) / 8 = 5 * (m / 8) + (5 * (m % 8) + j) / 8 := by omega
  have e2 : (5 * m + j) % 8 = (5 * (m % 8) + j) % 8 := by omega
  unfold byteStreamBit
  rw [e1, e2]
  generalize hk : (5 * (m % 8) + j) / 8 = k
  have hk5 : k < 5 := by omega
  rw [List.getD_eq_getElem?_getD, List.getElem?_take, if_pos hk5, List.getElem?_drop]
  by_cases h : 5 * (m / 8) + k < bs.length
  · rw [hb _ h]; simp [h]
  · rw [List.getElem?_eq_none (by omega)]; simp [h]

/-- Bit `39 - x` of the decoder's group value is bit `x` of its 5-bit values, the first value's bit 4 first (20_memory.md R53). -/
theorem groupOfQuints_bit (vs : List Quint) (x : Nat) (hx : x < 40) :
    (groupOfQuints vs).getLsbD (39 - x) = (vs.getD (x / 5) 0#5).getLsbD (4 - x % 5) := by
  unfold groupOfQuints
  simp only [BitVec.getLsbD_append]
  interval_cases x <;> rfl

/-- The bytes a group emits (R156). -/
theorem emitBytes_get (v : Group) (b j : Nat) (hj : j < b) : (emitBytes v b)[j]? = some (v.extractLsb' (32 - 8 * j) 8) := by
  simp [emitBytes, hj]

/-- Bit `7 - i` of byte `j` is bit `8j + i` of the group, from the top (R156). -/
theorem emit_bit (v : Group) (j i : Nat) (hj : j < 5) (hi : i < 8) :
    (v.extractLsb' (32 - 8 * j) 8).getLsbD (7 - i) = v.getLsbD (39 - (8 * j + i)) := by
  rw [BitVec.getLsbD_extractLsb']
  have : 7 - i < 8 := by omega
  simp only [this, decide_true, Bool.true_and]
  congr 1; omega

/-- Characters look up as values exactly when each one does (R154). -/
theorem lookupAll_eq_some (dt : DecTable) (cs : List Byte) (vs : List Quint) :
    lookupAll dt cs = some vs ↔ vs.length = cs.length ∧ ∀ i (h : i < cs.length), decLookup dt cs[i] = vs[i]? := by
  induction cs generalizing vs with
  | nil => cases vs <;> simp [lookupAll]
  | cons c cs ih =>
    simp only [lookupAll]
    constructor
    · intro h
      cases h1 : decLookup dt c <;> cases h2 : lookupAll dt cs <;> simp [h1, h2] at h
      subst h
      obtain ⟨h3, h4⟩ := (ih _).1 h2
      refine ⟨by simp [h3], fun i hi => ?_⟩
      cases i with
      | zero => simpa using h1
      | succ i => simpa using h4 i (by simpa using hi)
    · rintro ⟨h1, h2⟩
      cases vs with
      | nil => simp at h1
      | cons v vs =>
        have h3 : decLookup dt c = some v := h2 0 (by simp)
        have h4 : lookupAll dt cs = some vs := (ih _).2 ⟨by simpa using h1, fun i hi => h2 (i+1) (by simpa using hi)⟩
        simp [h3, h4]

/-- They fail exactly when one is `INVALID` (R154). -/
theorem lookupAll_eq_none (dt : DecTable) (cs : List Byte) :
    lookupAll dt cs = none ↔ ∃ c ∈ cs, decLookup dt c = none := by
  induction cs with
  | nil => simp [lookupAll]
  | cons c cs ih =>
    simp only [lookupAll, List.mem_cons, exists_eq_or_imp, ← ih]
    cases decLookup dt c <;> cases lookupAll dt cs <;> simp

/-- `padrun` by its description: the last `p` characters are `'='` and the one before them, if there is one, is not (R152). -/
theorem padRun_spec (cs : List Byte) (p : Nat) (hp : p ≤ cs.length)
    (h1 : ∀ k (h : k < cs.length), cs.length - p ≤ k → cs[k] = padChar)
    (h2 : p = cs.length ∨ ∃ h : cs.length - p - 1 < cs.length, cs[cs.length - p - 1] ≠ padChar) : padRun cs = p := by
  unfold padRun
  have key : ∀ (l : List Byte) (q : Nat), q ≤ l.length → (∀ k (h : k < l.length), k < q → l[k] = padChar) →
     (q = l.length ∨ ∃ h : q < l.length, l[q] ≠ padChar) → (l.takeWhile (fun c => c == padChar)).length = q := by
    intro l
    induction l with
    | nil => intro q hq _ _; simp at hq; simp [hq]
    | cons a l ih =>
      intro q hq ha hb
      cases q with
      | zero =>
        rcases hb with hb | ⟨_, hb⟩
        · simp at hb
        · simp at hb; simp [hb]
      | succ q =>
        have h0 : a = padChar := ha 0 (by simp) (by omega)
        rw [List.takeWhile_cons, if_pos (by simp [h0]), List.length_cons, ih q (by simpa using hq)]
        · intro k h hk; exact ha (k+1) (by simpa using h) (by omega)
        · rcases hb with hb | ⟨h, hb⟩
          · left; simpa using hb
          · right; exact ⟨by simpa using h, by simpa using hb⟩
  apply key
  · simpa using hp
  · intro k h hk
    rw [List.getElem_reverse]; apply h1; omega
  · rcases h2 with h2 | ⟨h, h2⟩
    · left; simpa using h2
    · by_cases hpe : p = cs.length
      · left; simpa using hpe
      · right; refine ⟨by simp; omega, ?_⟩
        rw [List.getElem_reverse]
        have : cs.length - 1 - p = cs.length - p - 1 := by omega
        simpa [this] using h2

end Sys2Proof.Machine
end

