-- ==== Sys2Proof/Laws/Exec.lean ====
section
/-! SUPPORT. What each meaning can do, once: if it answers a next state, then one of these cases holds. Later proofs cite these
instead of unfolding a meaning. -/

namespace Sys2Proof.Machine

open Host (Outcome)

/-- `BUILD_TABLES` always completes (40_tables.md R104). -/
theorem execBuildTables_eq (s : State) :
    execBuildTables s = .next ((s.setTables buildEnc (buildDec buildEnc)).complete .none) := rfl

/-- `ILLEGAL` always completes (60_exceptions.md R234). -/
theorem execIllegal_eq (w : Word) (s : State) : execIllegal w s = .next (s.complete .illegalCommand) := rfl

/-- A command that only grows completes with code 0 or with `OutOfMemory` (43_growth.md R193, R194). -/
theorem growAndComplete_cases (s : State) (proj : Nat) :
    (s.grow proj = none ∧ growAndComplete s proj = .next (s.complete .outOfMemory)) ∨
      ∃ t, s.grow proj = some t ∧ growAndComplete s proj = .next (t.complete .none) := by
  unfold growAndComplete
  cases s.grow proj with
  | none => exact Or.inl ⟨rfl, rfl⟩
  | some t => exact Or.inr ⟨t, rfl, rfl⟩

/-- `ENCODE` ends in `OutOfMemory`, in the model fault, or in success (41_encode.md R120). -/
theorem execEncode_cases (s : State) :
    (s.grow (projEnc s.operand) = none ∧ execEncode s = .next (s.failCodec .outOfMemory)) ∨
      ∃ t, s.grow (projEnc s.operand) = some t ∧
        ((t.readInput = none ∧ execEncode s = .fault .unwrittenInput) ∨
          ∃ bs, t.readInput = some bs ∧ execEncode s = .next (t.succeedCodec (encodeBytes t.et bs))) := by
  unfold execEncode
  cases s.grow (projEnc s.operand) with
  | none => exact Or.inl ⟨rfl, rfl⟩
  | some t =>
    refine Or.inr ⟨t, rfl, ?_⟩
    cases hr : t.readInput with
    | none => exact Or.inl ⟨rfl, by simp [hr]⟩
    | some bs => exact Or.inr ⟨bs, rfl, by simp [hr]⟩

/-- `DECODE` ends in one of its three errors, in the model fault, or in success (42_decode.md R150), in the order of
60_exceptions.md R236. -/
theorem execDecode_cases (s : State) :
    (s.operand % 8 ≠ 0 ∧ execDecode s = .next (s.failCodec .invalidLength)) ∨
      (s.operand % 8 = 0 ∧ s.grow (projDec s.operand) = none ∧ execDecode s = .next (s.failCodec .outOfMemory)) ∨
      ∃ t, s.operand % 8 = 0 ∧ s.grow (projDec s.operand) = some t ∧
        ((t.readInput = none ∧ execDecode s = .fault .unwrittenInput) ∨
          ∃ cs, t.readInput = some cs ∧
            ((decodeChars t.dt cs = none ∧
                execDecode s =
                  .next ((t.setMem (t.mem.clear t.outBase (decodeReach t.operand))).failCodec .invalidCharacter)) ∨
              ∃ out, decodeChars t.dt cs = some out ∧ execDecode s = .next (t.succeedCodec out))) := by
  unfold execDecode
  by_cases h8 : s.operand % 8 = 0
  · refine Or.inr ?_
    cases hg : s.grow (projDec s.operand) with
    | none => exact Or.inl ⟨h8, rfl, by simp [h8]⟩
    | some t =>
      refine Or.inr ⟨t, h8, rfl, ?_⟩
      cases hr : t.readInput with
      | none => exact Or.inl ⟨rfl, by simp [h8, hr]⟩
      | some cs =>
        refine Or.inr ⟨cs, rfl, ?_⟩
        cases hd : decodeChars t.dt cs with
        | none => exact Or.inl ⟨rfl, by simp [h8, hr, hd]⟩
        | some out => exact Or.inr ⟨out, rfl, by simp [h8, hr, hd]⟩
  · exact Or.inl ⟨h8, by simp [h8]⟩

/-- The offsets `decodeReg` knows are exactly those of 10_state.md R24. -/
theorem decodeReg_eq_some (a : Word) (r : Reg) : decodeReg a = some r ↔ a = regOffset r := by
  constructor
  · intro h
    unfold decodeReg at h
    split at h <;> cases h <;> (apply BitVec.eq_of_toNat_eq; assumption)
  · rintro rfl
    cases r <;> rfl

/-- `REG_RD` faults at a reserved offset and otherwise responds (44_host_access.md R210). -/
theorem execRegRd_cases (a : Word) (s : State) :
    (decodeReg a = none ∧ execRegRd a s = .fault .reservedRegister) ∨
      ∃ r, a = regOffset r ∧
        ((s.busy = true ∧ unspecifiedWhileBusy r = true ∧ execRegRd a s = .next s.respondFreeWord) ∨
          (¬(s.busy = true ∧ unspecifiedWhileBusy r = true) ∧ execRegRd a s = .next (s.respond (s.regValue r)))) := by
  unfold execRegRd
  cases hr : decodeReg a with
  | none => exact Or.inl ⟨rfl, rfl⟩
  | some r =>
    refine Or.inr ⟨r, (decodeReg_eq_some a r).1 hr, ?_⟩
    by_cases hb : s.busy = true ∧ unspecifiedWhileBusy r = true
    · exact Or.inl ⟨hb.1, hb.2, by simp [hb.1, hb.2]⟩
    · refine Or.inr ⟨hb, ?_⟩
      have : (s.busy && unspecifiedWhileBusy r) = false := by
        cases h1 : s.busy <;> cases h2 : unspecifiedWhileBusy r <;> simp_all
      simp [this]

/-- A `REG_WR` that goes on issued a command, wrote `LEN`, or changed nothing (44_host_access.md R211, R216). -/
theorem execRegWr_next {a d : Word} {s t : State} (h : execRegWr a d s = .next t) :
    (a = regOffset .cmd ∧ s.busy = false ∧ t = s.acceptCommand (decodeCommand d)) ∨
      (a = regOffset .len ∧ s.busy = false ∧ t = s.setLen d) ∨
      (a ≠ regOffset .cmd ∧ a ≠ regOffset .len ∧ t = s) := by
  unfold execRegWr at h
  cases hr : decodeReg a with
  | none => simp [hr] at h
  | some r =>
    have ha := (decodeReg_eq_some a r).1 hr
    cases r
    case cmd =>
      simp only [hr] at h
      split_ifs at h with hb
      exact Or.inl ⟨ha, by simpa using hb, (Outcome.next.inj h).symm⟩
    case len =>
      simp only [hr] at h
      split_ifs at h with hb
      exact Or.inr (Or.inl ⟨ha, by simpa using hb, (Outcome.next.inj h).symm⟩)
    all_goals
      simp only [hr] at h
      refine Or.inr (Or.inr ⟨?_, ?_, (Outcome.next.inj h).symm⟩) <;> rw [ha] <;> decide

/-- A `MEM_RD` that goes on responds with the byte of a written location above the header, or with a free byte
(44_host_access.md R212). -/
theorem execMemRd_next {a : Word} {s t : State} (h : execMemRd a s = .next t) :
    a.toNat < s.capacity ∧
      ((∃ b, s.busy = false ∧ s.inBase ≤ a.toNat ∧ s.mem.read a.toNat = some b ∧ t = s.respond (b.setWidth 32)) ∨
        ((s.busy = true ∨ a.toNat < s.inBase ∨ s.mem.read a.toNat = none) ∧ t = s.respondFreeByte)) := by
  unfold execMemRd at h
  split_ifs at h with h1 h2 h3
  · exact ⟨by omega, Or.inr ⟨Or.inl h2, (Outcome.next.inj h).symm⟩⟩
  · exact ⟨by omega, Or.inr ⟨Or.inr (Or.inl h3), (Outcome.next.inj h).symm⟩⟩
  · refine ⟨by omega, ?_⟩
    cases hr : s.mem.read a.toNat with
    | none => simp only [hr] at h; exact Or.inr ⟨Or.inr (Or.inr rfl), (Outcome.next.inj h).symm⟩
    | some b =>
      simp only [hr] at h
      exact Or.inl ⟨b, by simpa using h2, by omega, rfl, (Outcome.next.inj h).symm⟩

/-- A `MEM_WR` that goes on wrote one byte above the header and inside the region (44_host_access.md R213). -/
theorem execMemWr_next {a d : Word} {s t : State} (h : execMemWr a d s = .next t) :
    s.busy = false ∧ s.inBase ≤ a.toNat ∧ a.toNat < s.capacity ∧
      t = s.setMem (s.mem.write a.toNat (d.extractLsb' 0 8)) := by
  unfold execMemWr at h
  split_ifs at h with h1 h2 h3
  exact ⟨by simpa using h2, by omega, by omega, (Outcome.next.inj h).symm⟩

end Sys2Proof.Machine
end

