-- ==== Sys2Proof/Laws/PerInstr.lean ====
section
/-! SUPPORT. Statements made per instruction. `RoundTrip`: decoding the encoded form of a well-formed instruction gives the
instruction back (30_encoding.md R71, R72, R74). -/

namespace Sys2Proof.Laws.RoundTrip

/-- The instruction survives encoding and decoding. -/
def Statement (i : Instr) : Prop := i.wellFormed = true → decode (encode i) = i

theorem buildTables : Statement .buildTables := fun _ => rfl
theorem prepEncode : Statement .prepEncode := fun _ => rfl
theorem prepDecode : Statement .prepDecode := fun _ => rfl
theorem encode : Statement .encode := fun _ => rfl
theorem decode : Statement .decode := fun _ => rfl

/-- A reserved word decodes to `ILLEGAL`. -/
theorem decodeCommand_reserved {w : Word} (h : reservedWord w = true) : decodeCommand w = .illegal := by
  unfold decodeCommand
  split_ifs with h1
  · rfl
  · have h1 : w.extractLsb' 4 28 = 0#28 := by simpa using h1
    unfold reservedWord at h
    rw [h1] at h
    generalize w.extractLsb' 0 4 = op at h
    revert op
    decide

theorem illegal (w : Word) : Statement (.illegal w) := by
  intro h
  show decodeWord w = .illegal w
  unfold decodeWord
  rw [decodeCommand_reserved h]

theorem regRd (addr : Word) : Statement (.regRd addr) := fun _ => rfl
theorem regWr (addr data : Word) : Statement (.regWr addr data) := fun _ => rfl
theorem memRd (addr : Word) : Statement (.memRd addr) := fun _ => rfl
theorem memWr (addr data : Word) : Statement (.memWr addr data) := fun _ => rfl

end Sys2Proof.Laws.RoundTrip
end

