-- ==== Sys2Proof/Laws/Step.lean ====
section
/-! SUPPORT. What a step can do, once (10_state.md R20, R23, 60_exceptions.md R244): every claim about `step` starts here. -/

namespace Sys2Proof.Machine

/-- `STATUS` bit 0 is the phase (10_state.md R27). -/
theorem statusWord_busy (s : State) : s.statusWord.getLsbD 0 = s.busy := by
  unfold State.statusWord
  rw [BitVec.getLsbD_append]
  simp

/-- What one host move does as a step. -/
theorem hostFetch_cases (m : HostMove) (rest : List HostMove) (ts : List Agent) (s : State) :
    (∃ x, m = .bus x ∧ hostFetch m rest ts s = .run (decodeTxn x) (s.withHost rest ts)) ∨
      (m = .regOtherWidth ∧ hostFetch m rest ts s = .fault .reservedRegister) ∨
      (m = .wait ∧ hostFetch m rest ts s =
        .run (.regRd (regOffset .status)) (s.withHost (if s.busy then .wait :: rest else rest) ts)) ∨
      (m = .reset ∧ hostFetch m rest ts s = .restart (s.withHost rest ts).hardReset) := by
  cases m with
  | bus x => exact Or.inl ⟨x, rfl, rfl⟩
  | regOtherWidth => exact Or.inr (Or.inl ⟨rfl, rfl⟩)
  | wait => exact Or.inr (Or.inr (Or.inl ⟨rfl, by rw [hostFetch, statusWord_busy]⟩))
  | reset => exact Or.inr (Or.inr (Or.inr ⟨rfl, rfl⟩))

/-- A host move as a step: an instruction run after the move is taken off, a model fault, or a reset. -/
theorem step_of_hostFetch {s : State} {m : HostMove} {rest : List HostMove} {ts : List Agent}
    (h : s.fetch = hostFetch m rest ts s) :
    (∃ i q, step s = exec i (s.withHost q ts)) ∨ step s = .fault .reservedRegister ∨
      step s = .next (s.withHost rest ts).hardReset := by
  unfold step
  rw [h]
  rcases hostFetch_cases m rest ts s with ⟨x, -, h⟩ | ⟨-, h⟩ | ⟨-, h⟩ | ⟨-, h⟩ <;> rw [h]
  · exact Or.inl ⟨_, _, rfl⟩
  · exact Or.inr (Or.inl rfl)
  · exact Or.inl ⟨_, _, rfl⟩
  · exact Or.inr (Or.inr rfl)

/-- Who moves: nobody, the engine, or the host (10_state.md R20, R23). -/
theorem fetch_cases (s : State) :
    (s.phase = .idle ∧ s.hostQueue = [] ∧ s.fetch = .waiting) ∨
      (∃ op l ts, s.phase = .busy op l ∧ s.fetch = .run op.instr (s.withHost s.hostQueue ts)) ∨
      (∃ m rest, s.hostQueue = m :: rest ∧
        ((s.phase = .idle ∧ s.fetch = hostFetch m rest s.turns s) ∨
          ∃ op l ts, s.phase = .busy op l ∧ s.turns = .host :: ts ∧ s.fetch = hostFetch m rest ts s)) := by
  unfold State.fetch
  cases hp : s.phase with
  | idle =>
    cases hq : s.hostQueue with
    | nil => exact Or.inl ⟨rfl, rfl, rfl⟩
    | cons m rest => exact Or.inr (Or.inr ⟨m, rest, rfl, Or.inl ⟨rfl, rfl⟩⟩)
  | busy op l =>
    cases hq : s.hostQueue with
    | nil => exact Or.inr (Or.inl ⟨op, l, s.turns, rfl, by
        have e : s.withHost [] s.turns = s := by rw [← hq]; rfl
        rw [e]⟩)
    | cons m rest =>
      cases ht : s.turns with
      | nil => exact Or.inr (Or.inl ⟨op, l, [], rfl, by
          have e : s.withHost (m :: rest) [] = s := by rw [← hq, ← ht]; rfl
          rw [e]⟩)
      | cons a ts =>
        cases a with
        | engine => exact Or.inr (Or.inl ⟨op, l, ts, rfl, rfl⟩)
        | host => exact Or.inr (Or.inr ⟨m, rest, rfl, Or.inr ⟨op, l, ts, rfl, rfl, rfl⟩⟩)

/-- A step is one of four things: waiting, an instruction (the latched command or a host move) run in a state that differs only
in the host's moves and the schedule, a host move with no meaning, or a reset. -/
theorem step_cases (s : State) :
    step s = .next s ∨ (∃ i q ts, step s = exec i (s.withHost q ts)) ∨ step s = .fault .reservedRegister ∨
      (∃ q ts, step s = .next (s.withHost q ts).hardReset) := by
  have host : ∀ {m rest ts}, s.fetch = hostFetch m rest ts s →
      (∃ i q ts, step s = exec i (s.withHost q ts)) ∨ step s = .fault .reservedRegister ∨
        (∃ q ts, step s = .next (s.withHost q ts).hardReset) := by
    intro m rest ts h
    rcases step_of_hostFetch h with ⟨i, q, h⟩ | h | h
    · exact Or.inl ⟨i, q, ts, h⟩
    · exact Or.inr (Or.inl h)
    · exact Or.inr (Or.inr ⟨rest, ts, h⟩)
  rcases fetch_cases s with ⟨-, -, h⟩ | ⟨op, l, ts, -, h⟩ | ⟨m, rest, -, ⟨-, h⟩ | ⟨op, l, ts, -, -, h⟩⟩
  · exact Or.inl (by unfold step; rw [h])
  · exact Or.inr (Or.inl ⟨op.instr, s.hostQueue, ts, by unfold step; rw [h]⟩)
  · exact Or.inr (host h)
  · exact Or.inr (host h)

/-! What an instruction can do to the registers, by who runs it. -/

/-- Phase `IDLE` and `busy` are one fact (10_state.md R23, R27). -/
theorem busy_eq_false (s : State) : s.busy = false ↔ s.phase = .idle := by
  unfold State.busy
  cases s.phase <;> simp

/-- A latched command is no host transaction. -/
theorem command_not_transaction (op : Command) : isTransaction op.instr = false := by
  cases op <;> rfl

/-- A decoded bus transaction is a host transaction. -/
theorem decodeTxn_transaction (x : Txn) : isTransaction (decodeTxn x) = true := by
  unfold decodeTxn
  split <;> rfl

/-- The registers after a command that completes (60_exceptions.md R244): which it never writes, and which it may. -/
theorem exec_command_next {i : Instr} {s t : State} (hi : isTransaction i = false) (h : exec i s = .next t) :
    (t.phase = .idle ∧ t.done = true) ∧
      (t.len = s.len ∧ t.rdata = s.rdata ∧ t.draws = s.draws ∧ t.tablesReady = s.tablesReady ∧ t.params = s.params ∧
        t.hostQueue = s.hostQueue ∧ t.turns = s.turns) ∧
      (i ≠ .encode → i ≠ .decode → t.outPtr = s.outPtr ∧ t.outLen = s.outLen) ∧
      (i ≠ .prepEncode → i ≠ .prepDecode → i ≠ .encode → i ≠ .decode → t.pages = s.pages) := by
  cases i with
  | regRd => cases hi
  | regWr => cases hi
  | memRd => cases hi
  | memWr => cases hi
  | buildTables => cases h; simp
  | illegal w => cases h; simp
  | prepEncode =>
    rcases growAndComplete_cases s (projEnc s.operand) with ⟨-, e⟩ | ⟨u, hu, e⟩ <;>
      rw [show exec .prepEncode s = _ from e] at h <;> cases h
    · simp
    · simp [grow_frame hu]
  | prepDecode =>
    rcases growAndComplete_cases s (projDec s.operand) with ⟨-, e⟩ | ⟨u, hu, e⟩ <;>
      rw [show exec .prepDecode s = _ from e] at h <;> cases h
    · simp
    · simp [grow_frame hu]
  | encode =>
    rcases execEncode_cases s with ⟨-, e⟩ | ⟨u, hu, ⟨-, e⟩ | ⟨bs, -, e⟩⟩ <;>
      rw [show exec .encode s = _ from e] at h <;> cases h
    · simp [State.failCodec]
    · simp [State.succeedCodec, grow_frame hu]
  | decode =>
    rcases execDecode_cases s with ⟨-, e⟩ | ⟨-, -, e⟩ | ⟨u, -, hu, ⟨-, e⟩ | ⟨cs, -, ⟨-, e⟩ | ⟨out, -, e⟩⟩⟩ <;>
      rw [show exec .decode s = _ from e] at h <;> cases h
    · simp [State.failCodec]
    · simp [State.failCodec]
    · simp [State.failCodec, grow_frame hu]
    · simp [State.succeedCodec, grow_frame hu]

/-- A host transaction that goes on issued a command, wrote `LEN`, gave a response, or wrote one byte of the region
(44_host_access.md R210 to R214). -/
theorem exec_transaction_next {i : Instr} {s t : State} (hi : isTransaction i = true) (h : exec i s = .next t) :
    (∃ d, i = .regWr (regOffset .cmd) d ∧ s.busy = false ∧ t = s.acceptCommand (decodeCommand d)) ∨
      (∃ d, i = .regWr (regOffset .len) d ∧ s.busy = false ∧ t = s.setLen d) ∨
      ((∀ d, i ≠ .regWr (regOffset .cmd) d) ∧ (∀ d, i ≠ .regWr (regOffset .len) d) ∧
        ((((∃ a, i = .regRd a) ∨ ∃ a, i = .memRd a) ∧ ∃ v k, t = { s with rdata := v, draws := k }) ∨
          (((∃ a d, i = .regWr a d) ∨ ∃ a d, i = .memWr a d) ∧ ∃ m, t = s.setMem m))) := by
  cases i with
  | regRd a =>
    refine Or.inr (Or.inr ⟨by simp, by simp, Or.inl ⟨Or.inl ⟨a, rfl⟩, ?_⟩⟩)
    rcases execRegRd_cases a s with ⟨-, e⟩ | ⟨r, -, ⟨-, -, e⟩ | ⟨-, e⟩⟩ <;>
      rw [show exec (.regRd a) s = _ from e] at h <;> cases h <;> exact ⟨_, _, rfl⟩
  | regWr a d =>
    rcases execRegWr_next h with ⟨rfl, hb, rfl⟩ | ⟨rfl, hb, rfl⟩ | ⟨hc, hl, rfl⟩
    · exact Or.inl ⟨d, rfl, hb, rfl⟩
    · exact Or.inr (Or.inl ⟨d, rfl, hb, rfl⟩)
    · exact Or.inr (Or.inr ⟨fun _ e => hc (Instr.regWr.inj e).1, fun _ e => hl (Instr.regWr.inj e).1,
        Or.inr ⟨Or.inl ⟨a, d, rfl⟩, t.mem, rfl⟩⟩)
  | memRd a =>
    refine Or.inr (Or.inr ⟨by simp, by simp, Or.inl ⟨Or.inr ⟨a, rfl⟩, ?_⟩⟩)
    rcases (execMemRd_next h).2 with ⟨b, -, -, -, rfl⟩ | ⟨-, rfl⟩ <;> exact ⟨_, _, rfl⟩
  | memWr a d =>
    obtain ⟨-, -, -, rfl⟩ := execMemWr_next h
    exact Or.inr (Or.inr ⟨by simp, by simp, Or.inr ⟨Or.inr ⟨a, d, rfl⟩, _, rfl⟩⟩)
  | buildTables => cases hi
  | prepEncode => cases hi
  | prepDecode => cases hi
  | encode => cases hi
  | decode => cases hi
  | illegal => cases hi

end Sys2Proof.Machine
end

