-- ==== Sys2Proof/Machine/HostProgram.lean ====
section
/-! DEFINITION. The host's assembler (30_encoding.md R76) and pseudo-instructions (R77), as lists of host moves. -/

namespace Sys2Proof.Machine

/-- `rd REG` (R76). -/
def asmRd (r : Reg) : HostMove := .bus { kind := 0b00#2, addr := regOffset r, data := 0#32 }

/-- `wr REG, imm32` (R76). -/
def asmWr (r : Reg) (d : Word) : HostMove := .bus { kind := 0b01#2, addr := regOffset r, data := d }

/-- `lb off` (R76). -/
def asmLb (a : Word) : HostMove := .bus { kind := 0b10#2, addr := a, data := 0#32 }

/-- `sb off, imm8` (R76). -/
def asmSb (a : Word) (b : Byte) : HostMove := .bus { kind := 0b11#2, addr := a, data := b.setWidth 32 }

/-- `cmd NAME` (R77). -/
def asmCmd (c : Command) : HostMove := asmWr .cmd c.word

/-- `run NAME, n` (R77). -/
def asmRun (c : Command) (n : Word) : List HostMove := [asmWr .len n, asmCmd c, .wait]

/-- `sbs off, b0 b1 ... bk` (R77). -/
def asmSbs : Word → List Byte → List HostMove
  | _, [] => []
  | a, b :: bs => asmSb a b :: asmSbs (a + 1#32) bs

/-- `lbs off, n` (R77). -/
def asmLbs : Word → Nat → List HostMove
  | _, 0 => []
  | a, n + 1 => asmLb a :: asmLbs (a + 1#32) n

/-- `encode_call bytes` (R77), with `IN` the value of `IN_PTR`. The names `p` and `m` of R77 are what the two reads return;
a list of moves is fixed beforehand, so they are arguments here. -/
def asmEncodeCall (inPtr : Word) (bytes : List Byte) (p : Word) (m : Nat) : List HostMove :=
  asmRun .prepEncode (BitVec.ofNat 32 bytes.length) ++ asmSbs inPtr bytes ++
    asmRun .encode (BitVec.ofNat 32 bytes.length) ++ [asmRd .outPtr, asmRd .outLen] ++ asmLbs p m

/-- `decode_call chars` (R77), likewise. -/
def asmDecodeCall (inPtr : Word) (chars : List Byte) (p : Word) (m : Nat) : List HostMove :=
  asmRun .prepDecode (BitVec.ofNat 32 chars.length) ++ asmSbs inPtr chars ++
    asmRun .decode (BitVec.ofNat 32 chars.length) ++ [asmRd .outPtr, asmRd .outLen] ++ asmLbs p m

end Sys2Proof.Machine
end

