-- ==== Sys2Proof/Tests/Slice0.lean ====
section
/-! SUPPORT. Tests: the syntax check, decoding of written-out words, at most two one-step tests per instruction with results from
95_test_vectors.md, and for every obligation with hypotheses a witness that meets them. -/

namespace Sys2Proof.Tests

open Sys2Proof Sys2Proof.Machine

/-! ## Helpers -/

/-- The bytes of a list laid out from an offset on. -/
def stored (a : Nat) (bs : List Byte) : Memory := Memory.writeBytes [] a bs

/-- After reset, in phase `BUSY(op, n)`, with bytes stored at the input base 1024 of set A. -/
def busyWith (op : Command) (n : Word) (bs : List Byte) : State :=
  { State.reset with phase := .busy op n, mem := stored 1024 bs }

/-- After reset, in phase `IDLE`, with bytes stored at the input base. -/
def idleWith (bs : List Byte) : State := { State.reset with mem := stored 1024 bs }

/-- `idleWith` after a completed command. -/
def doneWith (code : ErrCode) : State := { State.reset with done := true, err := code }

/-- The outcome is a next state of which `p` holds. -/
def next (o : Host.Outcome State Fault Refusal) (p : State → Bool) : Bool :=
  match o with
  | .next t => p t
  | _ => false

/-- The fault of an outcome. -/
def faultOf (o : Host.Outcome State Fault Refusal) : Option Fault :=
  match o with
  | .fault r => some r
  | _ => none

/-- What a codec command leaves: `STATUS`, `OUT_PTR`, `OUT_LEN` and the output bytes. -/
def result (o : Host.Outcome State Fault Refusal) : Option (Word × Nat × Nat × Option (List Byte)) :=
  match o with
  | .next t => some (t.statusWord, t.outPtr.toNat, t.outLen.toNat, t.mem.readBytes t.outPtr.toNat t.outLen.toNat)
  | _ => none

theorem exists_next {o : Host.Outcome State Fault Refusal} {p : State → Bool} (h : next o p = true) :
    ∃ t, o = .next t ∧ p t = true := by
  cases o with
  | next t => exact ⟨t, rfl, h⟩
  | fault r => exact absurd h (by simp [next])
  | refused r => exact absurd h (by simp [next])

theorem setA_valid : Config.setA.Valid :=
  ⟨⟨16, by decide, by decide⟩, by decide, by decide, by decide, by decide⟩

/-- A state after reset but for its phase and the bytes in page 0 above the header meets the invariant. -/
theorem inv_page0 (ph : Phase) (m : Memory) (h : m.wf) (hin : ∀ c ∈ m, 1024 ≤ c.1 ∧ c.1 < 65536) :
    State.Inv { State.reset with phase := ph, mem := m } where
  params_valid := setA_valid
  pages_ge := Nat.le_refl _
  pages_le := show (1#32).toNat ≤ (2#32).toNat by decide
  mem_wf := h
  mem_inside := fun c hc => by
    have h1 : State.reset.inBase = 1024 := by decide +kernel
    have h2 : State.reset.capacity = 65536 := by decide +kernel
    have h := hin c hc
    rw [← h1, ← h2] at h
    exact h
  et_built := rfl
  dt_built := rfl
  ready := rfl
  busy_not_done := fun _ => rfl
  code_done := fun _ => rfl
  out_inside := Nat.zero_le _

theorem inv_done (code : ErrCode) : (doneWith code).Inv where
  params_valid := setA_valid
  pages_ge := Nat.le_refl _
  pages_le := show (1#32).toNat ≤ (2#32).toNat by decide
  mem_wf := List.Pairwise.nil
  mem_inside := fun _ h => absurd h (by simp [doneWith, State.reset, State.powerOn])
  et_built := rfl
  dt_built := rfl
  ready := rfl
  busy_not_done := fun h => absurd h (by simp [doneWith, State.busy, State.reset, State.powerOn])
  code_done := fun h => absurd h (by simp [doneWith])
  out_inside := Nat.zero_le _

/-- `1`, `GE======` and other inputs of 95_test_vectors.md as bytes. -/
def one : List Byte := [0x31#8]
def geOne : List Byte := [0x47#8, 0x45#8, 0x3D#8, 0x3D#8, 0x3D#8, 0x3D#8, 0x3D#8, 0x3D#8]
def gezdgnbv : List Byte := [0x47#8, 0x45#8, 0x5A#8, 0x44#8, 0x47#8, 0x4E#8, 0x42#8, 0x56#8]
def gezdgnLower : List Byte := [0x67#8, 0x65#8, 0x7A#8, 0x64#8, 0x67#8, 0x6E#8, 0x62#8, 0x76#8]

/-! ## Syntax -/

theorem test_illegal_needs_a_reserved_word :
    (Instr.illegal 0x00000001#32).wellFormed = false ∧ (Instr.illegal 0x00000004#32).wellFormed = false ∧
      (Instr.illegal 0x00000005#32).wellFormed = false ∧ (Instr.illegal 0x00000000#32).wellFormed = true ∧
      (Instr.illegal 0x00000006#32).wellFormed = true ∧ (Instr.illegal 0x0000000F#32).wellFormed = true ∧
      (Instr.illegal 0x00000010#32).wellFormed = true ∧ (Instr.illegal 0x80000005#32).wellFormed = true := by decide

/-! ## Decoding: words written out from 30_encoding.md R70, R71 and R74 -/

theorem test_decode_build_tables : decodeTableWord 32 0b00000000000000000000000000000001 = some .buildTables := by decide
theorem test_decode_prep_encode : decodeTableWord 32 0b00000000000000000000000000000010 = some .prepEncode := by decide
theorem test_decode_prep_decode : decodeTableWord 32 0b00000000000000000000000000000011 = some .prepDecode := by decide
theorem test_decode_encode : decodeTableWord 32 0b00000000000000000000000000000100 = some .encode := by decide
theorem test_decode_decode : decodeTableWord 32 0b00000000000000000000000000000101 = some .decode := by decide

/-- Vectors I1 to I6. -/
theorem test_decode_illegal :
    decodeTableWord 32 0x00000000 = some (.illegal 0x00000000#32) ∧
    decodeTableWord 32 0x00000006 = some (.illegal 0x00000006#32) ∧
    decodeTableWord 32 0x0000000F = some (.illegal 0x0000000F#32) ∧
    decodeTableWord 32 0x00000010 = some (.illegal 0x00000010#32) ∧
    decodeTableWord 32 0x00000014 = some (.illegal 0x00000014#32) ∧
    decodeTableWord 32 0x80000005 = some (.illegal 0x80000005#32) := by decide

theorem test_decode_reg_rd : decodeTableWord 8 0b00 = some (.regRd 0#32) ∧
    decodeTxn { kind := 0b00#2, addr := 0x00000008#32, data := 0#32 } = .regRd 0x00000008#32 := by decide
theorem test_decode_reg_wr : decodeTableWord 8 0b01 = some (.regWr 0#32 0#32) ∧
    decodeTxn { kind := 0b01#2, addr := 0x00000004#32, data := 0x00007530#32 } = .regWr 0x00000004#32 0x00007530#32 := by decide
theorem test_decode_mem_rd : decodeTableWord 8 0b10 = some (.memRd 0#32) ∧
    decodeTxn { kind := 0b10#2, addr := 0x00000401#32, data := 0#32 } = .memRd 0x00000401#32 := by decide
theorem test_decode_mem_wr : decodeTableWord 8 0b11 = some (.memWr 0#32 0#32) ∧
    decodeTableWord 72 (0b11 + 0x00000400 * 2 ^ 2 + 0x00000031 * 2 ^ 34) = some (.memWr 0x00000400#32 0x00000031#32) := by decide

/-- Bits that are no encoding are refused by name. -/
theorem test_decode_refuses :
    decodeBits 0 0 = .error .noBits ∧ decodeBits 80 0 = .error .tooLong ∧ decodeBits 8 0x100 = .error .valueTooWide ∧
      decodeBits 72 (2 ^ 66) = .error .strayBits := by
  refine ⟨rfl, rfl, rfl, rfl⟩

/-! ## One step of each instruction -/

/-- T9, from tables that hold nothing: `BUILD_TABLES` writes them. -/
theorem test_build_tables :
    next (exec .buildTables { busyWith .buildTables 0#32 [] with et := Vector.replicate 32 0#8, dt := Vector.replicate 256 none })
      (fun t => decide (t.statusWord = 0x00000102#32 ∧ encLookup t.et 25#5 = 0x5A#8 ∧ encLookup t.et 26#5 = 0x32#8 ∧
        decLookup t.dt 0x7A#8 = some 25#5 ∧ decLookup t.dt 0x37#8 = some 31#5 ∧ decLookup t.dt 0x31#8 = none)) = true := by
  decide +kernel

/-- The stored form of a decode-table entry (R102). -/
theorem test_sentinel : decEntryByte none = 0xFF#8 ∧ decEntryByte (some 31#5) = 0x1F#8 := by decide

/-- G7 and G8: the last length within `MAX_PAGES`, and the first beyond it. -/
theorem test_prep_encode_limit :
    next (exec .prepEncode (busyWith .prepEncode 43349#32 []))
      (fun t => decide (t.statusWord = 0x00000102#32 ∧ t.pages = 2#32)) = true ∧
    next (exec .prepEncode (busyWith .prepEncode 43350#32 []))
      (fun t => decide (t.statusWord = 0x00000132#32 ∧ t.pages = 1#32)) = true := by decide +kernel

/-- G4 and G6: the largest length that fits one page, and the next. -/
theorem test_prep_encode_page :
    next (exec .prepEncode (busyWith .prepEncode 21504#32 [])) (fun t => decide (t.pages = 1#32)) = true ∧
    next (exec .prepEncode (busyWith .prepEncode 21505#32 [])) (fun t => decide (t.pages = 2#32)) = true := by decide +kernel

/-- G5, and G10: the length is not checked. -/
theorem test_prep_decode :
    next (exec .prepDecode (busyWith .prepDecode 40000#32 []))
      (fun t => decide (t.statusWord = 0x00000102#32 ∧ t.pages = 2#32)) = true ∧
    next (exec .prepDecode (busyWith .prepDecode 7#32 []))
      (fun t => decide (t.statusWord = 0x00000102#32 ∧ t.pages = 1#32)) = true := by decide +kernel

/-- E15: a full group, then a group of one byte. -/
theorem test_encode_foobar :
    result (exec .encode (busyWith .encode 6#32 [0x66#8, 0x6F#8, 0x6F#8, 0x62#8, 0x61#8, 0x72#8])) =
      some (0x00000102#32, 1030, 16, some [0x4D#8, 0x5A#8, 0x58#8, 0x57#8, 0x36#8, 0x59#8, 0x54#8, 0x42#8,
        0x4F#8, 0x49#8, 0x3D#8, 0x3D#8, 0x3D#8, 0x3D#8, 0x3D#8, 0x3D#8]) := by decide +kernel

/-- E9: four bytes leave one `'='`; the last character ends in zeros. -/
theorem test_encode_four :
    result (exec .encode (busyWith .encode 4#32 [0xFF#8, 0xFF#8, 0xFF#8, 0xFF#8])) =
      some (0x00000102#32, 1028, 8, some [0x37#8, 0x37#8, 0x37#8, 0x37#8, 0x37#8, 0x37#8, 0x59#8, 0x3D#8]) := by decide +kernel

/-- DC17: the padded group is the last one. -/
theorem test_decode_two_groups :
    result (exec .decode (busyWith .decode 16#32 (gezdgnbv ++ geOne))) =
      some (0x00000102#32, 1040, 6, some [0x31#8, 0x32#8, 0x33#8, 0x34#8, 0x35#8, 0x31#8]) := by decide +kernel

/-- DC16: a padded group that is not the last one. -/
theorem test_decode_padding_inside :
    result (exec .decode (busyWith .decode 16#32 (geOne ++ gezdgnbv))) = some (0x00000122#32, 0, 0, some []) := by decide +kernel

/-- I5 after S2: `OUT_PTR` and `OUT_LEN` keep their values. -/
theorem test_illegal :
    next (exec (.illegal 0x00000014#32)
      { busyWith .illegal 1#32 one with outPtr := 1025#32, outLen := 8#32 })
      (fun t => decide (t.statusWord = 0x00000142#32 ∧ t.outPtr = 1025#32 ∧ t.outLen = 8#32)) = true := by decide +kernel

/-- H3 and H19. -/
theorem test_reg_rd :
    next (exec (.regRd 0x1C#32) State.reset) (fun t => decide (t.rdata = 0x00010000#32)) = true ∧
    next (exec (.regRd 0x08#32) (busyWith .encode 1#32 one)) (fun t => decide (t.rdata = 0x00000101#32)) = true := by
  decide +kernel

/-- H8: reserved offsets. -/
theorem test_reg_rd_reserved :
    faultOf (exec (.regRd 0x24#32) State.reset) = some .reservedRegister ∧
    faultOf (exec (.regRd 0x02#32) State.reset) = some .reservedRegister := by decide +kernel

/-- A `CMD` write in phase `IDLE` latches `LEN` and clears the last result (44_host_access.md R214). -/
theorem test_reg_wr_cmd :
    next (exec (.regWr 0x00#32 0x00000004#32) { doneWith .outOfMemory with len := 30000#32 })
      (fun t => decide (t.phase = .busy .encode 30000#32 ∧ t.statusWord = 0x00000101#32)) = true := by decide +kernel

/-- H16 and H7. -/
theorem test_reg_wr :
    faultOf (exec (.regWr 0x00#32 0x00000004#32) (busyWith .encode 30000#32 [])) = some .commandWhileBusy ∧
    next (exec (.regWr 0x18#32 5#32) State.reset) (fun t => decide (t.pages = 1#32)) = true := by decide +kernel

/-- H9's read, and H14. -/
theorem test_mem_rd :
    next (exec (.memRd 1024#32) (idleWith one)) (fun t => decide (t.rdata = 0x00000031#32)) = true ∧
    faultOf (exec (.memRd 65536#32) State.reset) = some .outOfBounds := by decide +kernel

/-- H10: `DATA[31:8]` is ignored. -/
theorem test_mem_wr_low_byte :
    next (exec (.memWr 1024#32 0x000001FF#32) State.reset)
      (fun t => decide (t.byteAt 1024 = some 0xFF#8 ∧ t.byteAt 1025 = none)) = true := by decide +kernel

/-- H13, H14, H18, and the order of R213 where two of them meet. -/
theorem test_mem_wr_faults :
    faultOf (exec (.memWr 1023#32 0#32) State.reset) = some .headerWrite ∧
    faultOf (exec (.memWr 65536#32 0#32) State.reset) = some .outOfBounds ∧
    faultOf (exec (.memWr 1024#32 0#32) (busyWith .encode 1#32 one)) = some .memWriteWhileBusy ∧
    faultOf (exec (.memWr 65536#32 0#32) (busyWith .encode 1#32 one)) = some .outOfBounds := by decide +kernel

/-- The step runs what is placed: `MEM_WR` at offset 0 faults in the header, and a placed `ENCODE` of length 0 completes (S1). -/
theorem test_placed :
    faultOf (step (State.reset.withFetchWord 8 0b11)) = some .headerWrite ∧
    result (step (State.reset.withFetchWord 32 0x00000004)) = some (0x00000102#32, 1024, 0, some []) := by decide +kernel

/-- `sb 1024, 0x31` (R76) is the transaction P1 lists for it. -/
theorem test_assembler : asmSb 1024#32 0x31#8 = .bus { kind := 0b11#2, addr := 0x00000400#32, data := 0x00000031#32 } ∧
    asmRun .encode 1#32 = [.bus { kind := 0b01#2, addr := 0x00000004#32, data := 0x00000001#32 },
      .bus { kind := 0b01#2, addr := 0x00000000#32, data := 0x00000004#32 }, .wait] := by decide

/-! ## Witnesses: states and operands that meet the hypotheses of the obligations -/

/-- The invariant in every phase the statements take, with an input stored. -/
theorem inv_busyOne (op : Command) (n : Word) : (busyWith op n one).Inv :=
  inv_page0 _ _ (by decide) (by decide)

theorem inv_busyGe (op : Command) (n : Word) : (busyWith op n geOne).Inv :=
  inv_page0 _ _ (by decide) (by decide)

theorem inv_busyFull (op : Command) (n : Word) : (busyWith op n gezdgnbv).Inv :=
  inv_page0 _ _ (by decide) (by decide)

theorem inv_busyLower (op : Command) (n : Word) : (busyWith op n gezdgnLower).Inv :=
  inv_page0 _ _ (by decide) (by decide)

theorem inv_busyTwo (op : Command) (n : Word) : (busyWith op n (geOne ++ gezdgnbv)).Inv :=
  inv_page0 _ _ (by decide) (by decide)

theorem inv_busyEmpty (op : Command) (n : Word) : (busyWith op n []).Inv :=
  inv_page0 _ _ (by decide) (by decide)

/-- `ResetAbandonsTheCommand`: both phases. -/
theorem witness_reset :
    ({ State.reset with hostQueue := [.reset] } : State).hostQueue = .reset :: [] ∧
    ({ State.reset with hostQueue := [.reset] } : State).phase = .idle ∧
    ({ busyWith .encode 1#32 one with hostQueue := [.reset], turns := [.host] } : State).hostQueue = .reset :: [] ∧
    ({ busyWith .encode 1#32 one with hostQueue := [.reset], turns := [.host] } : State).phase = .busy .encode 1#32 ∧
    ({ busyWith .encode 1#32 one with hostQueue := [.reset], turns := [.host] } : State).turns = .host :: [] :=
  ⟨rfl, rfl, rfl, rfl, rfl⟩

/-- `ResetMeetsTheInvariant`, `GrowthStepSuffices`: valid parameters, page by page and at the limit of R7. -/
theorem witness_valid : Config.setA.Valid ∧
    ({ pageSize := 16#32, reservedSize := 16#32, initialPages := 1#32, maxPages := 4#32 } : Params).Valid ∧
    ({ pageSize := 65536#32, reservedSize := 65533#32, initialPages := 1#32, maxPages := 65536#32 } : Params).Valid :=
  ⟨setA_valid, ⟨⟨4, by decide, by decide⟩, by decide, by decide, by decide, by decide⟩,
    ⟨⟨16, by decide, by decide⟩, by decide, by decide, by decide, by decide⟩⟩

/-- `EveryStepKeepsTheInvariant`: a step that completes an `ENCODE`, and one that waits. -/
theorem witness_step :
    (busyWith .encode 1#32 one).Inv ∧ (∃ t, step (busyWith .encode 1#32 one) = .next t) ∧
    (idleWith one).Inv ∧ ∃ t, step (idleWith one) = .next t :=
  ⟨inv_busyOne _ _, (exists_next (p := fun _ => true) (by decide +kernel)).imp fun _ h => h.1,
    inv_page0 _ _ (by decide) (by decide), ⟨_, rfl⟩⟩

/-- `StepRunsTheAgentToMove`: each of its five clauses; `WaitPollsUntilIdle`: each of its four. -/
theorem witness_agents :
    (State.reset.phase = .idle ∧ State.reset.hostQueue = []) ∧
    (∃ s : State, s.phase = .idle ∧ s.hostQueue = .bus ⟨0#2, 8#32, 0#32⟩ :: [] ∧ s = { State.reset with hostQueue := s.hostQueue }) ∧
    (∃ s : State, s.phase = .busy .decode 8#32 ∧ s.hostQueue = [] ∧ s = busyWith .decode 8#32 geOne) ∧
    (∃ s : State, s.phase = .busy .decode 8#32 ∧ s.turns = [] ∧ s = { busyWith .decode 8#32 geOne with hostQueue := [.wait] }) ∧
    (∃ s : State, s.phase = .busy .decode 8#32 ∧ s.hostQueue = .wait :: [] ∧ s.turns = .engine :: [] ∧
      s = { busyWith .decode 8#32 geOne with hostQueue := [.wait], turns := [.engine] }) ∧
    (∃ s : State, s.phase = .busy .decode 8#32 ∧ s.hostQueue = .bus ⟨0#2, 8#32, 0#32⟩ :: [] ∧ s.turns = .host :: [] ∧
      s = { busyWith .decode 8#32 geOne with hostQueue := s.hostQueue, turns := [.host] }) ∧
    (∃ s : State, s.phase = .idle ∧ s.hostQueue = .wait :: [] ∧ s = { State.reset with hostQueue := [.wait] }) ∧
    (∃ s : State, s.phase = .busy .decode 8#32 ∧ s.hostQueue = .wait :: [] ∧ s.turns = .host :: [] ∧
      s = { busyWith .decode 8#32 geOne with hostQueue := [.wait], turns := [.host] }) ∧
    (∃ s : State, s.phase = .idle ∧ s.hostQueue = .regOtherWidth :: [] ∧ s = { State.reset with hostQueue := [.regOtherWidth] }) ∧
    (∃ s : State, s.phase = .busy .decode 8#32 ∧ s.hostQueue = .regOtherWidth :: [] ∧ s.turns = .host :: [] ∧
      s = { busyWith .decode 8#32 geOne with hostQueue := [.regOtherWidth], turns := [.host] }) :=
  ⟨⟨rfl, rfl⟩, ⟨{ State.reset with hostQueue := [.bus ⟨0#2, 8#32, 0#32⟩] }, rfl, rfl, rfl⟩, ⟨_, rfl, rfl, rfl⟩,
    ⟨_, rfl, rfl, rfl⟩, ⟨_, rfl, rfl, rfl, rfl⟩,
    ⟨{ busyWith .decode 8#32 geOne with hostQueue := [.bus ⟨0#2, 8#32, 0#32⟩], turns := [.host] }, rfl, rfl, rfl, rfl⟩,
    ⟨_, rfl, rfl, rfl⟩, ⟨_, rfl, rfl, rfl, rfl⟩, ⟨_, rfl, rfl, rfl⟩, ⟨_, rfl, rfl, rfl, rfl⟩⟩

/-- `StepRunsThePlacedInstruction`: a command word, and a transaction in 8 and in 72 bits. -/
theorem witness_placed :
    decodeTableWord 32 0x00000005 = some .decode ∧ decodeTableWord 8 0b10 = some (.memRd 0#32) ∧
    decodeTableWord 72 (0b01 + 0x04 * 2 ^ 2 + 7 * 2 ^ 34) = some (.regWr 0x04#32 7#32) := by decide

/-- `EveryCommandCompletes`, `WritesWhileBusyFault`, `InvalidLengthIsCheckedFirst`: a phase `BUSY`; a length one off a multiple of 8. -/
theorem witness_busy : (busyWith .illegal 0#32 []).phase = .busy .illegal 0#32 ∧
    (busyWith .decode 7#32 []).phase = .busy .decode 7#32 ∧ (7#32).toNat % 8 ≠ 0 ∧
    (busyWith .decode 9#32 []).phase = .busy .decode 9#32 ∧ (9#32).toNat % 8 ≠ 0 := by decide +kernel

/-- `EveryCommandCompletes`, first clause: a command that runs while the host has a poll to make, and no reset. -/
theorem witness_no_reset :
    ({ busyWith .encode 1#32 one with hostQueue := [.wait], turns := [.host] } : State).phase = .busy .encode 1#32 ∧
    ∀ m ∈ ({ busyWith .encode 1#32 one with hostQueue := [.wait], turns := [.host] } : State).hostQueue, m ≠ .reset :=
  ⟨rfl, by decide⟩

/-- `EncodedInstructionsDecodeBack`, `IllegalCompletesWithItsCode`: reserved words at the edges of R72. -/
theorem witness_reserved : (Instr.illegal 0x00000006#32).wellFormed = true ∧ reservedWord 0x00000000#32 = true ∧
    reservedWord 0x00000006#32 = true ∧ reservedWord 0x00000011#32 = true := by decide

/-- `CommandWordsDecodeByOpcode`: one word for each row, the first and last reserved opcode, and a word with `RSVD` set. -/
theorem witness_opcodes :
    (0x0#32).extractLsb' 4 28 = 0#28 ∧ (0x1#32).extractLsb' 4 28 = 0#28 ∧ (0x2#32).extractLsb' 4 28 = 0#28 ∧
    (0x3#32).extractLsb' 4 28 = 0#28 ∧ (0x4#32).extractLsb' 4 28 = 0#28 ∧ (0x5#32).extractLsb' 4 28 = 0#28 ∧
    (0x6#32).extractLsb' 4 28 = 0#28 ∧ (0xF#32).extractLsb' 4 28 = 0#28 ∧
    (0x0#32).extractLsb' 0 4 = 0x0#4 ∧ (0x1#32).extractLsb' 0 4 = 0x1#4 ∧ (0x2#32).extractLsb' 0 4 = 0x2#4 ∧
    (0x3#32).extractLsb' 0 4 = 0x3#4 ∧ (0x4#32).extractLsb' 0 4 = 0x4#4 ∧ (0x5#32).extractLsb' 0 4 = 0x5#4 ∧
    6 ≤ ((0x6#32).extractLsb' 0 4).toNat ∧ 6 ≤ ((0xF#32).extractLsb' 0 4).toNat ∧
    (0x10#32).extractLsb' 4 28 ≠ 0#28 ∧ (0x80000005#32).extractLsb' 4 28 ≠ 0#28 := by
  refine ⟨by decide, by decide, by decide, by decide, by decide, by decide, by decide, by decide, ?_⟩
  decide

theorem reserved_offset_of {a : Word} (h : a.toNat % 4 ≠ 0 ∨ 36 ≤ a.toNat) : ∀ k, k < 9 → a.toNat ≠ 4 * k := by
  omega

/-- `RegisterReadsRespond`, `RegisterWritesTakeEffect`, `ReadsWhileBusyAreUnspecified`: both phases, and reserved offsets next to the
registers' own: 0x01, 0x1F, 0x21 and 0x24. -/
theorem witness_registers :
    State.reset.phase = .idle ∧ (busyWith .encode 1#32 one).phase ≠ .idle ∧ (busyWith .encode 1#32 one).Inv ∧
    (∀ k, k < 9 → (0x01#32).toNat ≠ 4 * k) ∧ (∀ k, k < 9 → (0x1F#32).toNat ≠ 4 * k) ∧
    (∀ k, k < 9 → (0x21#32).toNat ≠ 4 * k) ∧ ∀ k, k < 9 → (0x24#32).toNat ≠ 4 * k :=
  ⟨rfl, by decide +kernel, inv_busyOne _ _, reserved_offset_of (Or.inl (by decide)), reserved_offset_of (Or.inl (by decide)),
    reserved_offset_of (Or.inl (by decide)), reserved_offset_of (Or.inr (by decide))⟩

/-- `StatusTellsThePhase`: a running command, and each of the five results. -/
theorem witness_status :
    ((busyWith .encode 1#32 one).Inv ∧ (busyWith .encode 1#32 one).phase ≠ .idle) ∧
    ∀ c : ErrCode, (doneWith c).Inv ∧ (doneWith c).phase = .idle ∧ (doneWith c).done = true ∧ (doneWith c).err = c :=
  ⟨⟨inv_busyOne _ _, by decide +kernel⟩, fun c => ⟨inv_done c, rfl, rfl, rfl⟩⟩

/-- `ReadOnlyRegistersIgnoreWrites`: all seven. -/
theorem witness_readOnly : ∀ r ∈ [Reg.status, .inPtr, .outPtr, .outLen, .pages, .pageSize, .maxPages], r ≠ .cmd ∧ r ≠ .len := by
  decide

/-- `RegionReadsRespond`, `RegionWritesStoreOneByte`, `StoredByteReadsBack`: the first offset outside the region and the last inside it, the
last of the header and the first above it, `BUSY` inside and outside the region (log 10), unwritten, written. -/
theorem witness_region :
    State.reset.pages.toNat * State.reset.params.pageSize.toNat ≤ (65536#32).toNat ∧
    (65535#32).toNat < State.reset.pages.toNat * State.reset.params.pageSize.toNat ∧
    (65535#32).toNat < State.reset.capacity ∧
    (65535#32).toNat < (busyWith .encode 1#32 one).pages.toNat * (busyWith .encode 1#32 one).params.pageSize.toNat ∧
    (busyWith .encode 1#32 one).pages.toNat * (busyWith .encode 1#32 one).params.pageSize.toNat ≤ (65536#32).toNat ∧
    (busyWith .encode 1#32 one).phase ≠ .idle ∧
    (1023#32).toNat < State.reset.params.reservedSize.toNat ∧ State.reset.params.reservedSize.toNat ≤ (1024#32).toNat ∧
    (idleWith one).phase = .idle ∧ (idleWith one).byteAt (1024#32).toNat = some 0x31#8 ∧
    (idleWith one).byteAt (1025#32).toNat = none := by decide +kernel

/-- `BuildTablesRewritesTheTables`, `TablesAreInverse`: a state that meets the invariant, and the last letter. -/
theorem witness_tables : (busyWith .buildTables 0#32 []).Inv ∧ (25#5).toNat ≤ 25 := ⟨inv_busyEmpty _ _, by decide⟩

/-- `OnlyBuildTablesWritesTables`, `PagesNeverDecrease`, `EachRegisterHasItsWriters`, `OnlyCompletionLeavesBusy`: instructions that answer a next
state: one that grows the region, `BUILD_TABLES`, and a `CMD` write that leaves phase `IDLE`. -/
theorem witness_instructions :
    (∃ t, exec .prepEncode (busyWith .prepEncode 30000#32 []) = .next t ∧ t.pages ≠ 1#32) ∧
    (∃ t, exec .buildTables (busyWith .buildTables 0#32 []) = .next t ∧ t.phase ≠ .busy .buildTables 0#32) ∧
    (∃ t, exec (.regWr 0#32 4#32) State.reset = .next t ∧ t.phase ≠ .idle) := by
  refine ⟨?_, ?_, ?_⟩
  · obtain ⟨t, h, hp⟩ := exists_next (o := exec .prepEncode (busyWith .prepEncode 30000#32 []))
      (p := fun t => decide (t.pages ≠ 1#32)) (by decide +kernel)
    exact ⟨t, h, of_decide_eq_true hp⟩
  · obtain ⟨t, h, hp⟩ := exists_next (o := exec .buildTables (busyWith .buildTables 0#32 []))
      (p := fun t => decide (t.phase ≠ .busy .buildTables 0#32)) (by decide +kernel)
    exact ⟨t, h, of_decide_eq_true hp⟩
  · obtain ⟨t, h, hp⟩ := exists_next (o := exec (.regWr 0#32 4#32) State.reset)
      (p := fun t => decide (t.phase ≠ .idle)) (by decide +kernel)
    exact ⟨t, h, of_decide_eq_true hp⟩

/-- `EachRegisterHasItsWriters`, `OnlyCompletionLeavesBusy`, their clauses for transactions: a read while `BUSY`, a `LEN` write in phase `IDLE`, and a
`CMD` write. -/
theorem witness_transactions :
    (isTransaction (.regRd 8#32) = true ∧ (busyWith .encode 1#32 one).phase ≠ .idle ∧
      ∃ t, exec (.regRd 8#32) (busyWith .encode 1#32 one) = .next t) ∧
    (isTransaction (.regWr 4#32 7#32) = true ∧ (∀ d, Instr.regWr 4#32 7#32 ≠ .regWr (regOffset .cmd) d) ∧
      ∃ t, exec (.regWr 4#32 7#32) State.reset = .next t) ∧
    Instr.regWr 0#32 4#32 = .regWr (regOffset .cmd) 4#32 ∧ isTransaction .encode = false := by
  refine ⟨⟨rfl, by decide +kernel, ?_⟩, ⟨rfl, ?_, ?_⟩, rfl, rfl⟩
  · exact (exists_next (p := fun _ => true) (by decide +kernel)).imp fun _ h => h.1
  · intro d h
    injection h with h _
    exact absurd h (by decide)
  · exact (exists_next (p := fun _ => true) (by decide +kernel)).imp fun _ h => h.1

/-- `PrepCommandsRunTheGrowthStep`: each outcome of the growth step at its boundary, for both commands (G4, G6, G7, G8; `need` 1, 2 and 3 of
at most 2 pages). -/
theorem witness_growth :
    (1024 + max (3 * 21504) (21504 + 8 * ((21504 + 4) / 5)) + 65536 - 1) / 65536 = 1 ∧
    (1024 + max (3 * 21505) (21505 + 8 * ((21505 + 4) / 5)) + 65536 - 1) / 65536 = 2 ∧
    (1024 + max (3 * 43349) (43349 + 8 * ((43349 + 4) / 5)) + 65536 - 1) / 65536 = 2 ∧
    (1024 + max (3 * 43350) (43350 + 8 * ((43350 + 4) / 5)) + 65536 - 1) / 65536 = 3 ∧
    (1024 + 2 * 32256 + 65536 - 1) / 65536 = 1 ∧ (1024 + 2 * 32257 + 65536 - 1) / 65536 = 2 ∧
    (1024 + 2 * 65024 + 65536 - 1) / 65536 = 2 ∧ (1024 + 2 * 65025 + 65536 - 1) / 65536 = 3 ∧
    State.reset.pages.toNat = 1 ∧ State.reset.params.maxPages.toNat = 2 := by decide

/-- `OutOfMemoryChangesOnlyTheResult`, `CommandsReportTheFirstCause`: projections that do not fit (G8, E21, DC35), and lengths that do. -/
theorem witness_outOfMemory :
    ¬ (busyWith .prepEncode 43350#32 []).Fits (projEnc 43350) ∧ (busyWith .prepEncode 43349#32 []).Fits (projEnc 43349) ∧
    ¬ (busyWith .encode 4294967295#32 []).Fits (projEnc 4294967295) ∧
    ¬ (busyWith .prepDecode 65025#32 []).Fits (projDec 65025) ∧
    ¬ (busyWith .decode 65032#32 []).Fits (projDec 65032) ∧ 65032 % 8 = 0 ∧ (busyWith .decode 65024#32 []).Fits (projDec 65024) ∧
    State.reset.pages.toNat ≤ State.reset.params.maxPages.toNat := by
  unfold State.Fits
  decide +kernel

/-- `GrowthStepSuffices`: a growth step that succeeds, for each projection. -/
theorem witness_grow : (∃ t, State.reset.grow (projEnc 30000) = some t) ∧ ∃ t, State.reset.grow (projDec 40000) = some t :=
  ⟨Option.isSome_iff_exists.mp (by decide +kernel), Option.isSome_iff_exists.mp (by decide +kernel)⟩

/-- `EncodeWritesThePackedCharacters`, `EncodeChangesOnlyItsOutput`, `EncodedOutputStaysInTheAlphabet`: S2, with the window of its first
character (6, `00110`), the last data character and the first `'='`. -/
theorem witness_encode :
    (busyWith .encode 1#32 one).Inv ∧ (busyWith .encode 1#32 one).phase = .busy .encode 1#32 ∧
    (busyWith .encode 1#32 one).Fits (projEnc (1#32).toNat) ∧
    (busyWith .encode 1#32 one).InputIs (1#32).toNat (fun i => one.getD i 0#8) ∧
    (∀ j, j < 5 → BitVec.getLsbD 6#5 (4 - j) = byteStreamBit (fun i => one.getD i 0#8) 1 (5 * 0 + j)) ∧
    1 < (8 * 1 + 4) / 5 ∧ (8 * 1 + 4) / 5 ≤ 2 ∧ 2 < 8 * ((1 + 4) / 5) ∧
    (∃ t, exec .encode (busyWith .encode 1#32 one) = .next t ∧ t.err = .none) := by
  refine ⟨inv_busyOne _ _, rfl, ?_, ?_, ?_, ?_, ?_, ?_, ?_⟩
  · unfold State.Fits; decide +kernel
  · unfold State.InputIs; decide +kernel
  · decide
  · decide
  · decide
  · decide
  · obtain ⟨t, h, hp⟩ := exists_next (o := exec .encode (busyWith .encode 1#32 one))
      (p := fun t => decide (t.err = .none)) (by decide +kernel)
    exact ⟨t, h, of_decide_eq_true hp⟩

/-- The other outcome of `EncodeChangesOnlyItsOutput`: `OutOfMemory`. -/
theorem witness_encode_fails :
    (busyWith .encode 43350#32 []).Inv ∧
    ∃ t, exec .encode (busyWith .encode 43350#32 []) = .next t ∧ t.err ≠ .none := by
  refine ⟨inv_busyEmpty _ _, ?_⟩
  obtain ⟨t, h, hp⟩ := exists_next (o := exec .encode (busyWith .encode 43350#32 []))
    (p := fun t => decide (t.err ≠ .none)) (by decide +kernel)
  exact ⟨t, h, of_decide_eq_true hp⟩

/-- `CodecDependsOnItsInputAlone`: two different states with the same input. -/
theorem witness_codec :
    (busyWith .encode 1#32 one).Inv ∧ (busyWith .encode 1#32 [0x31#8, 0x32#8]).Inv ∧
    (∀ i, i < (1#32).toNat → (busyWith .encode 1#32 [0x31#8, 0x32#8]).byteAt ((busyWith .encode 1#32 one).inBase + i) =
      (busyWith .encode 1#32 one).byteAt ((busyWith .encode 1#32 one).inBase + i)) :=
  ⟨inv_busyOne _ _, inv_page0 _ _ (by decide) (by decide), by decide +kernel⟩

/-- `CommandsReportTheFirstCause`: an input with a hole (E22, DC34), and one without. -/
theorem witness_causes :
    (busyWith .encode 2#32 one).Inv ∧ (busyWith .encode 2#32 one).Fits (projEnc 2) ∧
    (busyWith .encode 2#32 one).byteAt ((busyWith .encode 2#32 one).inBase + 1) = none ∧
    (busyWith .decode 8#32 (gezdgnbv.take 7)).Inv ∧ (busyWith .decode 8#32 (gezdgnbv.take 7)).Fits (projDec 8) ∧
    (busyWith .decode 8#32 (gezdgnbv.take 7)).byteAt ((busyWith .decode 8#32 (gezdgnbv.take 7)).inBase + 7) = none ∧
    (∀ i, i < 8 → (busyWith .decode 8#32 gezdgnbv).byteAt ((busyWith .decode 8#32 gezdgnbv).inBase + i) ≠ none) ∧
    (∀ i, i < 1 → (busyWith .encode 1#32 one).byteAt ((busyWith .encode 1#32 one).inBase + i) ≠ none) :=
  ⟨inv_busyOne _ _, by unfold State.Fits; decide +kernel, by decide +kernel, inv_page0 _ _ (by decide) (by decide),
    by unfold State.Fits; decide +kernel, by decide +kernel, by decide +kernel, by decide +kernel⟩

/-- `DecodeWritesTheUnpackedBytes`: DC6, a run of 6, with the byte of its first output (0x31 from 6 and 4), and DC28's form, no run. -/
theorem witness_decode :
    (busyWith .decode 8#32 geOne).Inv ∧ (busyWith .decode 8#32 geOne).Fits (projDec (8#32).toNat) ∧
    (busyWith .decode 8#32 geOne).InputIs (8#32).toNat (fun i => geOne.getD i 0#8) ∧
    (∀ m, m < 8 - 6 → decLookup (buildDec buildEnc) (geOne.getD m 0#8) = some ([6#5, 4#5].getD m 0#5)) ∧
    (∀ m, m < 8 → 8 - 6 ≤ m → geOne.getD m 0#8 = 0x3D#8) ∧
    (∀ j, j < 8 → BitVec.getLsbD 0x31#8 (7 - j) = quintStreamBit (fun m => [6#5, 4#5].getD m 0#5) (8 * 0 + j)) ∧
    (busyWith .decode 8#32 gezdgnbv).InputIs (8#32).toNat (fun i => gezdgnbv.getD i 0#8) ∧
    (∀ m, m < 8 - 0 → decLookup (buildDec buildEnc) (gezdgnbv.getD m 0#8) =
      some ([6#5, 4#5, 25#5, 3#5, 6#5, 13#5, 1#5, 21#5].getD m 0#5)) := by
  refine ⟨inv_busyGe _ _, ?_, ?_, ?_, ?_, ?_, ?_, ?_⟩
  · unfold State.Fits; decide +kernel
  · unfold State.InputIs; decide +kernel
  · decide +kernel
  · decide
  · decide
  · unfold State.InputIs; decide +kernel
  · decide +kernel

/-- The legal runs 1, 3 and 4 of the same statement, as characters (DC8, DC7, and E7's output). -/
theorem witness_decode_runs :
    (∀ m, m < 7 → decLookup (buildDec buildEnc) ((gezdgnbv.take 7 ++ [0x3D#8]).getD m 0#8) ≠ none) ∧
    (gezdgnbv.take 7 ++ [0x3D#8]).getD 7 0#8 = 0x3D#8 ∧
    (∀ m, m < 5 → decLookup (buildDec buildEnc) ((gezdgnbv.take 5 ++ [0x3D#8, 0x3D#8, 0x3D#8]).getD m 0#8) ≠ none) ∧
    (∀ m, m < 4 → decLookup (buildDec buildEnc) ((gezdgnbv.take 4 ++ [0x3D#8, 0x3D#8, 0x3D#8, 0x3D#8]).getD m 0#8) ≠ none) := by
  decide +kernel

/-- `MalformedGroupsAreRejected`: a run of 7 (DC9), a run of 6 in a group that is not the last (DC16), a character outside the alphabet
(DC29), each with the run's own condition. -/
theorem witness_malformed :
    (∀ k, k < 8 → 8 - 7 ≤ k → (0x47#8 :: List.replicate 7 0x3D#8).getD k 0#8 = (0x3D#8 : Byte)) ∧
    (0x47#8 :: List.replicate 7 0x3D#8).getD (8 * 0 + (7 - 7)) 0#8 ≠ (0x3D#8 : Byte) ∧
    (∀ k, k < 8 → 8 - 6 ≤ k → (geOne ++ gezdgnbv).getD (8 * 0 + k) 0#8 = 0x3D#8) ∧
    (geOne ++ gezdgnbv).getD (8 * 0 + (7 - 6)) 0#8 ≠ 0x3D#8 ∧ 0 ≠ (16#32).toNat / 8 - 1 ∧
    decLookup (buildDec buildEnc) ((gezdgnbv.take 7 ++ [0x31#8]).getD 7 0#8) = none ∧
    (gezdgnbv.take 7 ++ [0x31#8]).getD (8 * 0 + (7 - 0)) 0#8 ≠ 0x3D#8 ∧
    (busyWith .decode 16#32 (geOne ++ gezdgnbv)).Inv ∧
    (busyWith .decode 16#32 (geOne ++ gezdgnbv)).InputIs (16#32).toNat (fun i => (geOne ++ gezdgnbv).getD i 0#8) := by
  refine ⟨by decide, by decide, by decide, by decide, by decide, by decide +kernel, by decide, inv_busyTwo _ _, ?_⟩
  unfold State.InputIs
  decide +kernel

/-- `FailedDecodeReturnsNothing`, `DecodeChangesOnlyItsOutput`, `DecodeAcceptsExactlyWellFormedInput`: `InvalidCharacter` (DC16), another error (DC2), and
a success (DC6). -/
theorem witness_decode_outcomes :
    (∃ t, exec .decode (busyWith .decode 16#32 (geOne ++ gezdgnbv)) = .next t ∧ t.err = .invalidCharacter) ∧
    (∃ t, exec .decode (busyWith .decode 2#32 one) = .next t ∧ t.err = .invalidLength) ∧
    (∃ t, exec .decode (busyWith .decode 8#32 geOne) = .next t ∧ t.err = .none) := by
  refine ⟨?_, ?_, ?_⟩
  · obtain ⟨t, h, hp⟩ := exists_next (o := exec .decode (busyWith .decode 16#32 (geOne ++ gezdgnbv)))
      (p := fun t => decide (t.err = .invalidCharacter)) (by decide +kernel)
    exact ⟨t, h, of_decide_eq_true hp⟩
  · obtain ⟨t, h, hp⟩ := exists_next (o := exec .decode (busyWith .decode 2#32 one))
      (p := fun t => decide (t.err = .invalidLength)) (by decide +kernel)
    exact ⟨t, h, of_decide_eq_true hp⟩
  · obtain ⟨t, h, hp⟩ := exists_next (o := exec .decode (busyWith .decode 8#32 geOne))
      (p := fun t => decide (t.err = .none)) (by decide +kernel)
    exact ⟨t, h, of_decide_eq_true hp⟩

/-- `DecodeIgnoresCase`: DC19 beside S3's output. -/
theorem witness_case :
    (busyWith .decode 8#32 gezdgnbv).Inv ∧ (busyWith .decode 8#32 gezdgnLower).Inv ∧
    (busyWith .decode 8#32 gezdgnbv).InputIs (8#32).toNat (fun i => gezdgnbv.getD i 0#8) ∧
    (busyWith .decode 8#32 gezdgnLower).InputIs (8#32).toNat (fun i => gezdgnLower.getD i 0#8) ∧
    (∀ i, i < (8#32).toNat → gezdgnLower.getD i 0#8 = gezdgnbv.getD i 0#8 ∨
      (0x41 ≤ (gezdgnbv.getD i 0#8).toNat ∧ (gezdgnbv.getD i 0#8).toNat ≤ 0x5A ∧
        gezdgnLower.getD i 0#8 = gezdgnbv.getD i 0#8 + 0x20#8)) ∧
    ∃ t, exec .decode (busyWith .decode 8#32 gezdgnbv) = .next t := by
  refine ⟨inv_busyFull _ _, inv_busyLower _ _, ?_, ?_, by decide, ?_⟩
  · unfold State.InputIs; decide +kernel
  · unfold State.InputIs; decide +kernel
  · exact (exists_next (p := fun _ => true) (by decide +kernel)).imp fun _ h => h.1

/-- `DecodeInvertsEncode`: S2 and DC6. -/
theorem witness_round_trip :
    (busyWith .encode 1#32 one).Inv ∧ (busyWith .decode 8#32 geOne).Inv ∧
    (busyWith .encode 1#32 one).InputIs (1#32).toNat (fun i => one.getD i 0#8) ∧
    (8#32).toNat = 8 * (((1#32).toNat + 4) / 5) ∧ (busyWith .decode 8#32 geOne).Fits (projDec (8#32).toNat) ∧
    ∃ t, exec .encode (busyWith .encode 1#32 one) = .next t ∧ t.err = .none ∧
      ∀ m, m < (8#32).toNat → (busyWith .decode 8#32 geOne).byteAt ((busyWith .decode 8#32 geOne).inBase + m) =
        t.byteAt (t.outPtr.toNat + m) := by
  refine ⟨inv_busyOne _ _, inv_busyGe _ _, ?_, by decide, ?_, ?_⟩
  · unfold State.InputIs; decide +kernel
  · unfold State.Fits; decide +kernel
  · obtain ⟨t, h, hp⟩ := exists_next (o := exec .encode (busyWith .encode 1#32 one))
      (p := fun t => decide (t.err = .none ∧ ∀ m, m < (8#32).toNat →
        (busyWith .decode 8#32 geOne).byteAt ((busyWith .decode 8#32 geOne).inBase + m) = t.byteAt (t.outPtr.toNat + m)))
      (by decide +kernel)
    exact ⟨t, h, of_decide_eq_true hp⟩

/-- `TheHeaderIsNeverWritten`: an instruction that writes the region, and the last header offset. -/
theorem witness_header :
    (idleWith one).Inv ∧ 1023 < (idleWith one).inBase ∧ ∃ t, exec (.memWr 1024#32 0#32) (idleWith one) = .next t :=
  ⟨inv_page0 _ _ (by decide) (by decide), by decide, ⟨_, rfl⟩⟩

end Sys2Proof.Tests
end

section
/-! PROOFS. The state after reset meets the invariant (00_scope.md R7, 10_state.md R40). -/

namespace Sys2Proof.Machine

/-- The example column of 00_scope.md R7: pages of `2 ^ 16` bytes. -/
theorem Params.valid_setA : Config.setA.Valid where
  pageSize_pow2 := ⟨16, by decide, by decide⟩
  reserved_le := by decide
  initial_pos := by decide
  initial_le_max := by decide
  space_le := by decide

/-- Reset gives the region its initial pages with every location `UNWRITTEN`, so only the page limit rests on R7. -/
theorem powerOn_inv {p : Params} (hp : p.Valid) : (State.powerOn p).Inv where
  params_valid := hp
  pages_ge := Nat.le_refl _
  pages_le := hp.initial_le_max
  mem_wf := List.Pairwise.nil
  mem_inside := fun c hc => absurd hc (by simp)
  et_built := powerOn_et p
  dt_built := powerOn_dt p
  ready := rfl
  busy_not_done := fun _ => rfl
  code_done := fun _ => rfl
  out_inside := Nat.zero_le _

/-- Settles O3: reset's invariant for all parameters of R7, then at the example column. -/
theorem resetMeetsTheInvariant : Obligations.ResetMeetsTheInvariant :=
  ⟨fun _ hp => powerOn_inv hp, powerOn_inv Params.valid_setA⟩

end Sys2Proof.Machine
end

section
/-! PROOFS. Every operation of the block, and so every step, keeps the invariant (10_state.md R27, 20_memory.md R62, R63,
40_tables.md R105, 43_growth.md R195 to R197). -/

namespace Sys2Proof.Machine

section Invariant
variable {s t : State}

/-! One lemma per named update of the state -/

/-- The invariant says nothing of the host's side of the bus. -/
theorem inv_withHost (hi : s.Inv) (q : List HostMove) (ts : List Agent) : (s.withHost q ts).Inv := { hi with }

theorem inv_response (hi : s.Inv) (v : Word) (k : Nat) : State.Inv { s with rdata := v, draws := k } := { hi with }

theorem inv_setLen (hi : s.Inv) (d : Word) : (s.setLen d).Inv := { hi with }

/-- Acceptance clears `DONE` and `ERRCODE`, which is what R27 asks of a running command. -/
theorem inv_acceptCommand (hi : s.Inv) (op : Command) : (s.acceptCommand op).Inv :=
  { hi with
    busy_not_done := fun _ => rfl
    code_done := fun _ => rfl }

/-- Completion leaves phase `IDLE` with `DONE` set, so any code may stand. -/
theorem inv_complete (hi : s.Inv) (c : ErrCode) : (s.complete c).Inv :=
  { hi with
    busy_not_done := fun h => absurd h (by simp)
    code_done := fun h => absurd h (by simp) }

theorem inv_setTables_built (hi : s.Inv) : (s.setTables buildEnc (buildDec buildEnc)).Inv :=
  { hi with
    et_built := rfl
    dt_built := rfl }

theorem inv_setOutput (hi : s.Inv) {p l : Word} (h : p.toNat + l.toNat ≤ s.capacity) : (s.setOutput p l).Inv :=
  { hi with out_inside := h }

theorem inv_setMem (hi : s.Inv) {m : Memory} (hw : m.wf) (hin : ∀ c ∈ m, s.inBase ≤ c.1 ∧ c.1 < s.capacity) :
    (s.setMem m).Inv :=
  { hi with
    mem_wf := hw
    mem_inside := hin }

theorem inv_clear (hi : s.Inv) (x n : Nat) : (s.setMem (s.mem.clear x n)).Inv :=
  inv_setMem hi (clear_wf hi.mem_wf x n) fun c hc => hi.mem_inside c (mem_clear hc)

/-- Writing a run of bytes between the header and the capacity. -/
theorem inv_writeBytes (hi : s.Inv) {x : Nat} {vs : List Byte} (hx : s.inBase ≤ x) (hv : x + vs.length ≤ s.capacity) :
    (s.setMem (s.mem.writeBytes x vs)).Inv := by
  refine inv_setMem hi (writeBytes_wf hi.mem_wf x vs) fun c hc => ?_
  rcases mem_writeBytes hc with hc | ⟨hlo, hhi⟩
  · exact hi.mem_inside c hc
  · exact ⟨by omega, by omega⟩

/-- A failed codec command leaves an empty output, which lies inside every region. -/
theorem inv_failCodec (hi : s.Inv) (c : ErrCode) : (s.failCodec c).Inv :=
  inv_complete (inv_setOutput hi (Nat.zero_le _)) c

/-- A codec command whose output fits behind its input keeps the invariant. -/
theorem inv_succeedCodec (hi : s.Inv) {out : List Byte} (h : s.outBase + out.length ≤ s.capacity) :
    (s.succeedCodec out).Inv := by
  have hm : (s.setMem (s.mem.writeBytes s.outBase out)).Inv := inv_writeBytes hi (Nat.le_add_right _ _) h
  refine inv_complete (inv_setOutput hm ?_) .none
  calc (BitVec.ofNat 32 s.outBase).toNat + (BitVec.ofNat 32 out.length).toNat
      ≤ s.outBase + out.length := by
        simp only [BitVec.toNat_ofNat]
        exact Nat.add_le_add (Nat.mod_le _ _) (Nat.mod_le _ _)
    _ ≤ s.capacity := h

/-- A reset makes the block as new, whatever ran (70_reset_and_hazards.md R260, R261). -/
theorem inv_hardReset (hi : s.Inv) : s.hardReset.Inv :=
  have h := powerOn_inv hi.params_valid
  { h with }

/-! One lemma per meaning -/

theorem growAndComplete_inv {proj : Nat} (hi : s.Inv) (h : growAndComplete s proj = .next t) : t.Inv := by
  rcases growAndComplete_cases s proj with ⟨-, e⟩ | ⟨u, hu, e⟩ <;> rw [e] at h <;> cases h
  · exact inv_complete hi _
  · exact inv_complete (grow_inv hi hu) _

/-- Sufficiency (43_growth.md R197): what a projection covers behind the input fits in the grown region. -/
theorem grow_outBase_le {u : State} {proj n : Nat} (hi : s.Inv) (hu : s.grow proj = some u) (hn : s.operand + n ≤ proj) :
    u.outBase + n ≤ u.capacity := by
  have hs := grow_suffices (params_pos hi.params_valid) hu
  rw [grow_outBase hu]
  unfold State.outBase State.inBase
  omega

/-- The output of an `ENCODE` is as long as its projection allows (R191). -/
theorem execEncode_inv (hi : s.Inv) (h : execEncode s = .next t) : t.Inv := by
  rcases execEncode_cases s with ⟨-, e⟩ | ⟨u, hu, ⟨-, e⟩ | ⟨bs, hbs, e⟩⟩ <;> rw [e] at h <;> cases h
  · exact inv_failCodec hi _
  · refine inv_succeedCodec (grow_inv hi hu) (grow_outBase_le hi hu ?_)
    rw [encodeBytes_length, readBytes_length hbs, grow_operand hu]
    exact projEnc_covers _

/-- The output of a `DECODE` is no longer than its projection allows (R192). -/
theorem execDecode_inv (hi : s.Inv) (h : execDecode s = .next t) : t.Inv := by
  rcases execDecode_cases s with ⟨-, e⟩ | ⟨-, -, e⟩ | ⟨u, -, hu, ⟨-, e⟩ | ⟨cs, hcs, ⟨-, e⟩ | ⟨out, hout, e⟩⟩⟩ <;>
    rw [e] at h <;> cases h
  · exact inv_failCodec hi _
  · exact inv_failCodec hi _
  · exact inv_failCodec (inv_clear (grow_inv hi hu) _ _) _
  · refine inv_succeedCodec (grow_inv hi hu) (grow_outBase_le hi hu ?_)
    have hlen : out.length ≤ 5 * (s.operand / 8) := by
      have := decodeChars_length_le hout
      rwa [readBytes_length hcs, grow_operand hu] at this
    exact Nat.le_trans (Nat.add_le_add_left hlen _) (projDec_covers _)

theorem execRegRd_inv {a : Word} (hi : s.Inv) (h : execRegRd a s = .next t) : t.Inv := by
  rcases execRegRd_cases a s with ⟨-, e⟩ | ⟨r, -, ⟨-, -, e⟩ | ⟨-, e⟩⟩ <;> rw [e] at h <;> cases h
  · exact inv_response hi _ _
  · exact inv_response hi _ _

theorem execRegWr_inv {a d : Word} (hi : s.Inv) (h : execRegWr a d s = .next t) : t.Inv := by
  rcases execRegWr_next h with ⟨-, -, rfl⟩ | ⟨-, -, rfl⟩ | ⟨-, -, rfl⟩
  · exact inv_acceptCommand hi _
  · exact inv_setLen hi d
  · exact hi

theorem execMemRd_inv {a : Word} (hi : s.Inv) (h : execMemRd a s = .next t) : t.Inv := by
  obtain ⟨-, ⟨b, -, -, -, rfl⟩ | ⟨-, rfl⟩⟩ := execMemRd_next h
  · exact inv_response hi _ _
  · exact inv_response hi _ _

/-- `MEM_WR` checks both bounds before it writes (44_host_access.md R213). -/
theorem execMemWr_inv {a d : Word} (hi : s.Inv) (h : execMemWr a d s = .next t) : t.Inv := by
  obtain ⟨-, hlo, hhi, rfl⟩ := execMemWr_next h
  exact inv_writeBytes (vs := [_]) hi hlo hhi

/-! Every instruction and every step -/

theorem exec_inv {i : Instr} (hi : s.Inv) (h : exec i s = .next t) : t.Inv := by
  cases i with
  | buildTables => cases h; exact inv_complete (inv_setTables_built hi) _
  | prepEncode => exact growAndComplete_inv hi h
  | prepDecode => exact growAndComplete_inv hi h
  | encode => exact execEncode_inv hi h
  | decode => exact execDecode_inv hi h
  | illegal w => cases h; exact inv_complete hi _
  | regRd a => exact execRegRd_inv hi h
  | regWr a d => exact execRegWr_inv hi h
  | memRd a => exact execMemRd_inv hi h
  | memWr a d => exact execMemWr_inv hi h

theorem step_inv (hi : s.Inv) (h : step s = .next t) : t.Inv := by
  rcases step_cases s with e | ⟨i, q, ts, e⟩ | e | ⟨q, ts, e⟩ <;> rw [e] at h
  · cases h; exact hi
  · exact exec_inv (inv_withHost hi q ts) h
  · cases h
  · cases h; exact inv_hardReset (inv_withHost hi q ts)

end Invariant

/-- Settles O4: an instruction keeps the invariant, and so do waiting and a reset. -/
theorem everyStepKeepsTheInvariant : Obligations.EveryStepKeepsTheInvariant :=
  fun _ _ => step_inv

end Sys2Proof.Machine
end

section
/-! PROOFS. The host's view of the registers: `STATUS` bit by bit (10_state.md R27, 60_exceptions.md R230), and the values reset
leaves (10_state.md R40). -/

namespace Sys2Proof.Machine

/-! The built tables, range by range (40_tables.md R100, R101) -/

theorem decLookup_digit {c : Byte} (h1 : 0x32 ≤ c.toNat) (h2 : c.toNat ≤ 0x37) :
    decLookup (buildDec buildEnc) c = some (BitVec.ofNat 5 (c.toNat - 0x32 + 26)) := by
  rw [decLookup_buildDec, decValue, if_pos ⟨h1, h2⟩]

theorem decLookup_upper {c : Byte} (h1 : 0x41 ≤ c.toNat) (h2 : c.toNat ≤ 0x5A) :
    decLookup (buildDec buildEnc) c = some (BitVec.ofNat 5 (c.toNat - 0x41)) := by
  rw [decLookup_buildDec, decValue, if_neg (by omega), if_pos ⟨h1, h2⟩]

theorem decLookup_lower {c : Byte} (h1 : 0x61 ≤ c.toNat) (h2 : c.toNat ≤ 0x7A) :
    decLookup (buildDec buildEnc) c = some (BitVec.ofNat 5 (c.toNat - 0x61)) := by
  rw [decLookup_buildDec, decValue, if_neg (by omega), if_neg (by omega), if_pos ⟨h1, h2⟩]

theorem decLookup_outside {c : Byte} (h : c.toNat ≤ 0x31 ∨ (0x38 ≤ c.toNat ∧ c.toNat ≤ 0x40) ∨
    (0x5B ≤ c.toNat ∧ c.toNat ≤ 0x60) ∨ 0x7B ≤ c.toNat) : decLookup (buildDec buildEnc) c = none := by
  rw [decLookup_buildDec, decValue, if_neg (by omega), if_neg (by omega), if_neg (by omega)]

/-- What `BUILD_TABLES` and reset write are the contents of 40_tables.md R100 and R101. -/
theorem tablesHold_built : TablesHold buildEnc (buildDec buildEnc) where
  upper v h := by rw [encLookup_buildEnc, if_pos h]
  digit v h := by rw [encLookup_buildEnc, if_neg (by omega)]
  fromDigit _ := decLookup_digit
  fromUpper _ := decLookup_upper
  fromLower _ := decLookup_lower
  invalid _ := decLookup_outside

/-! `STATUS` -/

/-- The layout of 10_state.md R27 as a word of its four fields. -/
def statusLayout (ready : Bool) (code : BitVec 3) (done busy : Bool) : Word :=
  0#23 ++ BitVec.ofBool ready ++ 0#1 ++ code ++ 0#2 ++ BitVec.ofBool done ++ BitVec.ofBool busy

theorem statusWord_eq (s : State) : s.statusWord = statusLayout s.tablesReady (errBits s.err) s.done s.busy := rfl

/-- Every bit of the layout, over the 64 values of the four fields. -/
theorem statusLayout_bits : ∀ (ready : Bool) (code : BitVec 3) (done busy : Bool),
    (statusLayout ready code done busy).getLsbD 0 = busy ∧
    (statusLayout ready code done busy).getLsbD 1 = done ∧
    (statusLayout ready code done busy).extractLsb' 2 2 = 0#2 ∧
    (statusLayout ready code done busy).extractLsb' 4 3 = code ∧
    (statusLayout ready code done busy).getLsbD 7 = false ∧
    (statusLayout ready code done busy).getLsbD 8 = ready ∧
    (statusLayout ready code done busy).extractLsb' 9 23 = 0#23 := by
  decide

/-- A `REG_RD` of a register whose value is specified in the present phase responds with it and changes nothing else
(44_host_access.md R210). -/
theorem exec_regRd_specified {r : Reg} (s : State) (h : unspecifiedWhileBusy r = false) :
    exec (.regRd (regOffset r)) s = .next (s.respond (s.regValue r)) := by
  have hr : decodeReg (regOffset r) = some r := (decodeReg_eq_some _ r).2 rfl
  show execRegRd (regOffset r) s = _
  simp [execRegRd, hr, h]

/-- `STATUS` reads exactly in both phases. -/
theorem exec_regRd_status (s : State) : exec (.regRd 0x08#32) s = .next (s.respond s.statusWord) :=
  exec_regRd_specified (r := .status) s rfl

/-- Settles O13: the response is `STATUS`, laid out by its four fields. -/
theorem statusBitsReadAsLaidOut : Obligations.StatusBitsReadAsLaidOut := by
  intro s
  obtain ⟨h0, h1, h2, h4, h7, h8, h9⟩ := statusLayout_bits s.tablesReady (errBits s.err) s.done s.busy
  exact ⟨_, exec_regRd_status s, h0, h1, h2, h4, h7, h8, h9, (busy_eq_false_iff s).symm⟩

/-- `STATUS` while a command runs (44_host_access.md R210): under the invariant only `BUSY` and `TABLES_READY` are set. -/
theorem statusWord_running {s : State} (hi : s.Inv) (h : s.phase ≠ .idle) : s.statusWord = 0x101#32 := by
  have hb : s.busy = true := Bool.eq_true_of_not_eq_false (mt (busy_eq_false_iff s).1 h)
  have hd := hi.busy_not_done hb
  rw [statusWord_eq, hi.ready, hi.code_done hd, hd, hb]
  rfl

/-- `STATUS` after a completion (60_exceptions.md R230, R244): `DONE` and `TABLES_READY` beside the code. -/
theorem statusWord_completed {s : State} {code : ErrCode} (hi : s.Inv) (hp : s.phase = .idle) (hd : s.done = true)
    (he : s.err = code) : s.statusWord = statusLayout true (errBits code) true false := by
  rw [statusWord_eq, hi.ready, he, hd, (busy_eq_false_iff s).2 hp]

/-- Settles O14: the invariant fixes all of `STATUS` while a command runs, and all but the code after it. -/
theorem statusTellsThePhase : Obligations.StatusTellsThePhase := by
  intro s hi
  refine ⟨fun hp => by rw [exec_regRd_status, statusWord_running hi hp]; rfl, fun hp hd => ?_⟩
  have word : ∀ {code}, s.err = code →
      exec (.regRd 0x08#32) s = .next { s with rdata := statusLayout true (errBits code) true false } :=
    fun he => by rw [exec_regRd_status, statusWord_completed hi hp hd he]; rfl
  exact ⟨word, word, word, word, word⟩

/-! The values reset leaves -/

/-- Reset's `STATUS` is `TABLES_READY` alone (R40). -/
theorem statusWord_powerOn (p : Params) : (State.powerOn p).statusWord = 0x100#32 := by
  show statusLayout true (errBits .none) false false = 0x100#32
  rfl

/-- Settles O1: each field by the definition of reset, the tables range by range. -/
theorem resetLeavesTheListedValues : Obligations.ResetLeavesTheListedValues :=
  fun p => ⟨rfl, rfl, statusWord_powerOn p, rfl, rfl, rfl, rfl, rfl, rfl, rfl, rfl, rfl, rfl, tablesHold_built,
    fun _ => rfl⟩

end Sys2Proof.Machine
end

section
/-! PROOFS. What a step runs, by who moves (10_state.md R20, R23), and where the bits of an instruction are placed
(30_encoding.md R70, R74). -/

namespace Sys2Proof.Machine

section Moves
variable {s t : State} {op : Command} {l : Word} {m : HostMove} {rest : List HostMove} {ts : List Agent}

/-! The fetch, one equation for each way the next agent is settled -/

theorem fetch_waiting (hp : s.phase = .idle) (hq : s.hostQueue = []) : s.fetch = .waiting := by
  simp only [State.fetch, hp, hq]

theorem fetch_host_idle (hp : s.phase = .idle) (hq : s.hostQueue = m :: rest) :
    s.fetch = hostFetch m rest s.turns s := by
  simp only [State.fetch, hp, hq]

theorem fetch_host_busy (hp : s.phase = .busy op l) (hq : s.hostQueue = m :: rest) (ht : s.turns = .host :: ts) :
    s.fetch = hostFetch m rest ts s := by
  simp only [State.fetch, hp, hq, ht]

theorem fetch_engine_alone (hp : s.phase = .busy op l) (h : s.hostQueue = [] ∨ s.turns = []) :
    s.fetch = .run op.instr s := by
  rcases h with hq | ht
  · simp only [State.fetch, hp, hq]
  · cases hq : s.hostQueue <;> simp only [State.fetch, hp, hq, ht]

theorem fetch_engine_turn (hp : s.phase = .busy op l) (hq : s.hostQueue = m :: rest) (ht : s.turns = .engine :: ts) :
    s.fetch = .run op.instr (s.withHost s.hostQueue ts) := by
  simp only [State.fetch, hp, hq, ht]

theorem step_of_run {i : Instr} (h : s.fetch = .run i t) : step s = exec i t := by
  unfold step; rw [h]

end Moves

/-- Settles O5: the five ways of `State.fetch` that run an instruction or nothing. -/
theorem stepRunsTheAgentToMove : Obligations.StepRunsTheAgentToMove := by
  intro s
  refine ⟨fun hp hq => ?_, fun x rest hp hq => ?_, fun op l hp h => ?_, fun op l m rest ts hp hq ht => ?_,
    fun op l x rest ts hp hq ht => ?_⟩
  · unfold step; rw [fetch_waiting hp hq]
  · exact step_of_run (fetch_host_idle hp hq)
  · exact step_of_run (fetch_engine_alone hp h)
  · exact step_of_run (fetch_engine_turn hp hq ht)
  · exact step_of_run (fetch_host_busy hp hq ht)

/-! Reset as a host move -/

/-- The host's reset is delivered in either phase, whatever the engine has latched (70_reset_and_hazards.md R260, R261). -/
theorem step_reset {s : State} {rest : List HostMove} (hq : s.hostQueue = .reset :: rest)
    (h : s.phase = .idle ∨ ∃ op l ts, s.phase = .busy op l ∧ s.turns = .host :: ts) :
    ∃ ts, step s = .next (s.withHost rest ts).hardReset := by
  rcases h with hp | ⟨op, l, ts, hp, ht⟩
  · exact ⟨s.turns, by unfold step; rw [fetch_host_idle hp hq, hostFetch]⟩
  · exact ⟨ts, by unfold step; rw [fetch_host_busy hp hq ht, hostFetch]⟩

@[simp] theorem hardReset_statusWord (s : State) : s.hardReset.statusWord = 0x100#32 := statusWord_powerOn s.params

/-- Settles O2: the state the delivered reset leaves, field by field. -/
theorem resetAbandonsTheCommand : Obligations.ResetAbandonsTheCommand := by
  intro s rest hq h
  obtain ⟨ts, e⟩ := step_reset hq h
  exact ⟨_, e, rfl, rfl, rfl, hardReset_statusWord _, rfl, rfl, rfl, tablesHold_built, fun _ => rfl, rfl⟩

/-! The bits of an instruction -/

theorem decodeTableWord_eq_some {nbits w : Nat} {i : Instr} (h : decodeTableWord nbits w = some i) :
    ∃ f, frameOf nbits w = .ok f ∧ decode f = i := by
  unfold decodeTableWord decodeBits at h
  cases hf : frameOf nbits w with
  | error e => simp [hf] at h
  | ok f => exact ⟨f, rfl, by simpa [hf] using h⟩

/-- 32 bits are a command word and no other number of bits is (30_encoding.md R70). -/
theorem frameOf_cases {nbits w : Nat} {f : Frame} (h : frameOf nbits w = .ok f) :
    (nbits = 32 ∧ f = .cmdw (BitVec.ofNat 32 w)) ∨ (nbits ≠ 32 ∧ ∃ x, f = .hbus x) := by
  unfold frameOf at h
  split_ifs at h with h1 h2 h3 h32 h66
  · exact Or.inl ⟨h32, (Except.ok.inj h).symm⟩
  · exact Or.inr ⟨h32, _, (Except.ok.inj h).symm⟩

/-- A command word means what its latched command means: `ILLEGAL` does not read its word (60_exceptions.md R234). -/
theorem exec_decodeWord (w : Word) (s : State) : exec (decodeWord w) s = exec (decodeCommand w).instr s := by
  unfold decodeWord
  cases decodeCommand w <;> rfl

theorem placeCommand_alone {s : State} (hq : s.hostQueue = []) (w : Word) :
    s.placeCommand w = s.acceptCommand (decodeCommand w) := by
  simp only [State.placeCommand, hq]

theorem placeCommand_queued {s : State} {m : HostMove} {rest : List HostMove} (hq : s.hostQueue = m :: rest) (w : Word) :
    s.placeCommand w = (s.acceptCommand (decodeCommand w)).withHost s.hostQueue (.engine :: s.turns) := by
  simp only [State.placeCommand, hq]

/-- A placed command word completes from the state its acceptance leaves: the turn placed with it is the one spent. -/
theorem step_placeCommand (s : State) (w : Word) :
    step (s.placeCommand w) = exec (decodeCommand w).instr (s.acceptCommand (decodeCommand w)) := by
  cases hq : s.hostQueue with
  | nil =>
    rw [placeCommand_alone hq]
    exact step_of_run (fetch_engine_alone (acceptCommand_phase s _) (Or.inl hq))
  | cons m rest =>
    rw [placeCommand_queued hq]
    exact step_of_run (fetch_engine_turn (acceptCommand_phase s _) hq rfl)

theorem placeTxn_idle {s : State} (hp : s.phase = .idle) (x : Txn) :
    s.placeTxn x = s.withHost (.bus x :: s.hostQueue) s.turns := by
  simp only [State.placeTxn, hp]

theorem placeTxn_busy {s : State} {op : Command} {l : Word} (hp : s.phase = .busy op l) (x : Txn) :
    s.placeTxn x = s.withHost (.bus x :: s.hostQueue) (.host :: s.turns) := by
  simp only [State.placeTxn, hp]

/-- A placed transaction runs in the state itself: the move and the turn placed with it are the ones spent. -/
theorem step_placeTxn (s : State) (x : Txn) : step (s.placeTxn x) = exec (decodeTxn x) s := by
  cases hp : s.phase with
  | idle =>
    rw [placeTxn_idle hp]
    exact step_of_run (fetch_host_idle ((withHost_phase s _ _).trans hp) (withHost_hostQueue s _ _))
  | busy op l =>
    rw [placeTxn_busy hp]
    exact step_of_run (fetch_host_busy ((withHost_phase s _ _).trans hp) (withHost_hostQueue s _ _)
      (withHost_turns s _ _))

/-- Settles O6: a command word is found in the phase, a transaction at the head of the host's moves. -/
theorem stepRunsThePlacedInstruction : Obligations.StepRunsThePlacedInstruction := by
  intro s nbits w i h
  obtain ⟨f, hf, rfl⟩ := decodeTableWord_eq_some h
  unfold State.withFetchWord
  rcases frameOf_cases hf with ⟨h32, rfl⟩ | ⟨h32, x, rfl⟩ <;> rw [hf]
  · rw [if_pos h32]
    exact (step_placeCommand s _).trans (exec_decodeWord _ _).symm
  · rw [if_neg h32]
    exact step_placeTxn s x

end Sys2Proof.Machine
end

section
/-! PROOFS. Which instruction writes which register (10_state.md R26 to R34, 43_growth.md R195), and which changes the phase
(10_state.md R23, 44_host_access.md R214, 60_exceptions.md R244). -/

namespace Sys2Proof.Machine

section Instructions
variable {i : Instr} {s t : State}

/-! The registers after an instruction -/

/-- The frame of a host transaction (44_host_access.md R210 to R214): `LEN` and the response have their own writers, and nothing else
outside the phase, `DONE`, `ERRCODE` and the region changes. -/
theorem exec_transaction_frame (hi : isTransaction i = true) (h : exec i s = .next t) :
    ((∀ d, i ≠ .regWr (regOffset .len) d) → t.len = s.len) ∧
      ((∀ a, i ≠ .regRd a) → (∀ a, i ≠ .memRd a) → t.rdata = s.rdata ∧ t.draws = s.draws) ∧
      t.outPtr = s.outPtr ∧ t.outLen = s.outLen ∧ t.pages = s.pages ∧
      t.tablesReady = s.tablesReady ∧ t.params = s.params ∧ t.hostQueue = s.hostQueue ∧ t.turns = s.turns := by
  rcases exec_transaction_next hi h with
    ⟨d, -, -, rfl⟩ | ⟨d, rfl, -, rfl⟩ | ⟨-, -, ⟨hrd, v, k, rfl⟩ | ⟨-, m, rfl⟩⟩
  · simp
  · simp
  · simp only [implies_true, and_true, true_and]
    intro hr hm
    rcases hrd with ⟨a, ha⟩ | ⟨a, ha⟩
    · exact absurd ha (hr a)
    · exact absurd ha (hm a)
  · simp

/-- A host transaction that issues no command keeps the phase, `DONE` and `ERRCODE`. -/
theorem exec_transaction_keeps_phase (hi : isTransaction i = true) (hc : ∀ d, i ≠ .regWr (regOffset .cmd) d)
    (h : exec i s = .next t) : t.phase = s.phase ∧ t.done = s.done ∧ t.err = s.err := by
  rcases exec_transaction_next hi h with
    ⟨d, rfl, -, -⟩ | ⟨d, -, -, rfl⟩ | ⟨-, -, ⟨-, v, k, rfl⟩ | ⟨-, m, rfl⟩⟩
  · exact absurd rfl (hc d)
  · exact ⟨rfl, rfl, rfl⟩
  · exact ⟨rfl, rfl, rfl⟩
  · exact ⟨rfl, rfl, rfl⟩

/-- A write of `CMD` that goes on finds phase `IDLE` and issues the command (44_host_access.md R214). -/
theorem exec_regWr_cmd_next {d : Word} (h : exec (.regWr (regOffset .cmd) d) s = .next t) :
    s.phase = .idle ∧ t = s.acceptCommand (decodeCommand d) := by
  have hw : execRegWr (regOffset .cmd) d s = .next t := h
  rcases execRegWr_next hw with ⟨-, hb, rfl⟩ | ⟨ha, -⟩ | ⟨ha, -⟩
  · exact ⟨(busy_eq_false_iff s).1 hb, rfl⟩
  · exact absurd ha (by decide)
  · exact absurd rfl ha

/-- The phase decides `BUSY` (10_state.md R27). -/
theorem busy_congr (h : t.phase = s.phase) : t.busy = s.busy := by
  unfold State.busy; rw [h]

theorem exec_pages_eq (h : exec i s = .next t) (h1 : i ≠ .prepEncode) (h2 : i ≠ .prepDecode) (h3 : i ≠ .encode)
    (h4 : i ≠ .decode) : t.pages = s.pages := by
  cases hi : isTransaction i with
  | true =>
    obtain ⟨-, -, -, -, hpages, -⟩ := exec_transaction_frame hi h
    exact hpages
  | false =>
    obtain ⟨-, -, -, hpages⟩ := exec_command_next hi h
    exact hpages h1 h2 h3 h4

end Instructions

/-- Settles O44: the frames of the commands and of the host transactions, register by register. -/
theorem eachRegisterHasItsWriters : Obligations.EachRegisterHasItsWriters := by
  intro i s t h
  have hcmd : ∀ d, i = .regWr (regOffset .cmd) d → t.busy = true ∧ t.done = false ∧ t.err = .none := by
    rintro d rfl
    obtain ⟨-, rfl⟩ := exec_regWr_cmd_next h
    exact ⟨rfl, rfl, rfl⟩
  cases hi : isTransaction i with
  | true =>
    obtain ⟨hlen, hresp, hptr, houtLen, hpages, hkept⟩ := exec_transaction_frame hi h
    refine ⟨hlen, fun _ _ => ⟨hptr, houtLen⟩, fun _ _ _ _ => hpages, fun _ hc => ?_, hcmd, hresp, hkept⟩
    obtain ⟨hphase, hflags⟩ := exec_transaction_keeps_phase hi hc h
    exact ⟨busy_congr hphase, hflags⟩
  | false =>
    obtain ⟨-, ⟨hlen, hrdata, hdraws, hkept⟩, hout, hpages⟩ := exec_command_next hi h
    exact ⟨fun _ => hlen, hout, hpages, nofun, hcmd, fun _ _ => ⟨hrdata, hdraws⟩, hkept⟩

/-- Settles O45: commands complete; a host transaction that changes the phase is a write of `CMD`, which phase `BUSY` refuses. -/
theorem onlyCompletionLeavesBusy : Obligations.OnlyCompletionLeavesBusy := by
  intro i s t h
  cases hi : isTransaction i with
  | false =>
    obtain ⟨hend, -⟩ := exec_command_next hi h
    refine ⟨fun _ => hend, nofun, fun _ _ => ⟨rfl, hend⟩, fun hne hs => ?_⟩
    exact absurd (hend.1.trans hs.symm) hne
  | true =>
    have hkeep : s.phase ≠ .idle → t.phase = s.phase ∧ t.done = s.done ∧ t.err = s.err := fun hs =>
      exec_transaction_keeps_phase hi (by rintro d rfl; exact hs (exec_regWr_cmd_next h).1) h
    refine ⟨nofun, fun _ => hkeep, fun hne hs => absurd (hkeep hs).1 hne, fun hne _ => ?_⟩
    by_contra hno
    have hc : ∀ d, i ≠ .regWr (regOffset .cmd) d := by
      rintro d rfl
      exact hno ⟨d, rfl, (exec_regWr_cmd_next h).2⟩
    exact hne (exec_transaction_keeps_phase hi hc h).1

/-! `PAGES` never falls (43_growth.md R195) -/

section Pages
variable {s t : State}

theorem grow_pages_le {u : State} {proj : Nat} (hu : s.grow proj = some u) : s.pages.toNat ≤ u.pages.toNat := by
  rw [grow_pages hu]; exact Nat.le_max_left _ _

theorem growAndComplete_pages_le {proj : Nat} (h : growAndComplete s proj = .next t) : s.pages.toNat ≤ t.pages.toNat := by
  rcases growAndComplete_cases s proj with ⟨-, e⟩ | ⟨u, hu, e⟩ <;> rw [e] at h <;> cases h
  · exact Nat.le_refl _
  · rw [complete_pages]; exact grow_pages_le hu

theorem execEncode_pages_le (h : execEncode s = .next t) : s.pages.toNat ≤ t.pages.toNat := by
  rcases execEncode_cases s with ⟨-, e⟩ | ⟨u, hu, ⟨-, e⟩ | ⟨bs, -, e⟩⟩ <;> rw [e] at h <;> cases h
  · exact Nat.le_refl _
  · rw [succeedCodec_pages]; exact grow_pages_le hu

theorem execDecode_pages_le (h : execDecode s = .next t) : s.pages.toNat ≤ t.pages.toNat := by
  rcases execDecode_cases s with ⟨-, e⟩ | ⟨-, -, e⟩ | ⟨u, -, hu, ⟨-, e⟩ | ⟨cs, -, ⟨-, e⟩ | ⟨out, -, e⟩⟩⟩ <;>
    rw [e] at h <;> cases h
  · exact Nat.le_refl _
  · exact Nat.le_refl _
  · rw [failCodec_pages, setMem_pages]; exact grow_pages_le hu
  · rw [succeedCodec_pages]; exact grow_pages_le hu

theorem exec_pages_le {i : Instr} (h : exec i s = .next t) : s.pages.toNat ≤ t.pages.toNat := by
  cases i with
  | prepEncode => exact growAndComplete_pages_le h
  | prepDecode => exact growAndComplete_pages_le h
  | encode => exact execEncode_pages_le h
  | decode => exact execDecode_pages_le h
  | _ => rw [exec_pages_eq h nofun nofun nofun nofun]

end Pages

/-- Settles O27: a growth step takes the larger of two page counts, and the other instructions keep `PAGES`. -/
theorem pagesNeverDecrease : Obligations.PagesNeverDecrease := by
  intro i s t h
  refine ⟨exec_pages_le h, fun hne => ?_⟩
  by_contra hno
  simp only [not_or] at hno
  obtain ⟨h1, h2, h3, h4⟩ := hno
  exact hne (exec_pages_eq h h1 h2 h3 h4)

end Sys2Proof.Machine
end

section
/-! PROOFS. Writes to the byte region: what `MEM_WR` does, check by check (44_host_access.md R213), and that no instruction writes
the header (20_memory.md R51, R63). -/

namespace Sys2Proof.Machine

section Region
variable {s t : State} {a d : Word}

theorem busy_of_not_idle (h : s.phase ≠ .idle) : s.busy = true :=
  Bool.eq_true_of_not_eq_false (mt (busy_eq_false_iff s).1 h)

/-! `MEM_WR`, one equation per outcome in the order of its checks -/

theorem exec_memWr_outOfBounds (ha : s.capacity ≤ a.toNat) : exec (.memWr a d) s = .fault .outOfBounds :=
  if_pos ha

theorem exec_memWr_busy (ha : a.toNat < s.capacity) (hp : s.phase ≠ .idle) :
    exec (.memWr a d) s = .fault .memWriteWhileBusy := by
  show execMemWr a d s = _
  rw [execMemWr, if_neg (Nat.not_le_of_lt ha), if_pos (busy_of_not_idle hp)]

theorem exec_memWr_idle (ha : a.toNat < s.capacity) (hp : s.phase = .idle) :
    exec (.memWr a d) s =
      if a.toNat < s.inBase then .fault .headerWrite
      else .next (s.setMem (s.mem.write a.toNat (d.extractLsb' 0 8))) := by
  show execMemWr a d s = _
  rw [execMemWr, if_neg (Nat.not_le_of_lt ha), (busy_eq_false_iff s).2 hp, if_neg Bool.false_ne_true]

theorem exec_memWr_header (ha : a.toNat < s.capacity) (hp : s.phase = .idle) (hb : a.toNat < s.inBase) :
    exec (.memWr a d) s = .fault .headerWrite := by
  rw [exec_memWr_idle ha hp, if_pos hb]

theorem exec_memWr_store (ha : a.toNat < s.capacity) (hp : s.phase = .idle) (hb : s.inBase ≤ a.toNat) :
    exec (.memWr a d) s = .next (s.setMem (s.mem.write a.toNat (d.extractLsb' 0 8))) := by
  rw [exec_memWr_idle ha hp, if_neg (Nat.not_lt_of_le hb)]

/-! The header -/

/-- Under the invariant no location of the header holds a byte (20_memory.md R63). -/
theorem header_unwritten (hi : s.Inv) {x : Nat} (hx : x < s.inBase) : s.byteAt x = none :=
  read_eq_none_of_lt fun c hc => Nat.lt_of_lt_of_le hx (hi.mem_inside c hc).1

/-- No instruction changes the parameters (00_scope.md R7). -/
theorem exec_params {i : Instr} (h : exec i s = .next t) : t.params = s.params := by
  cases hi : isTransaction i with
  | true =>
    obtain ⟨-, -, -, -, -, -, hparams, -⟩ := exec_transaction_frame hi h
    exact hparams
  | false =>
    obtain ⟨-, ⟨-, -, -, -, hparams, -⟩, -⟩ := exec_command_next hi h
    exact hparams

theorem exec_inBase {i : Instr} (h : exec i s = .next t) : t.inBase = s.inBase := by
  unfold State.inBase; rw [exec_params h]

end Region

/-- Settles O18: the checks in their order, then the one byte stored by the laws of `Memory.write`. -/
theorem regionWritesStoreOneByte : Obligations.RegionWritesStoreOneByte := by
  refine ⟨fun _ _ => rfl, fun s a d => ⟨exec_memWr_outOfBounds, exec_memWr_busy, exec_memWr_header, fun ha hp hb => ?_⟩⟩
  exact ⟨_, exec_memWr_store ha hp hb, rfl, read_write_same _ _ _, fun _ hx => read_write_other _ _ hx,
    fun hw => write_wf hw _ _⟩

/-- Settles O46: the header is at the same offsets before and after, and the invariant, which the instruction keeps, leaves it
`UNWRITTEN` in both states. -/
theorem theHeaderIsNeverWritten : Obligations.TheHeaderIsNeverWritten := by
  intro i s t hi h x hx
  have ht : t.byteAt x = none := header_unwritten (exec_inv hi h) ((exec_inBase h).symm ▸ hx)
  rw [ht, header_unwritten hi hx]

end Sys2Proof.Machine
end

section
/-! PROOFS. Encoding (30_encoding.md R70 to R74): the bits of an encoded form give the form back, and each command word has one
meaning. -/

namespace Sys2Proof

/-! The bits of an encoded form -/

/-- Division peels `KIND` off the packed number of a transaction, then `ADDR` (log 6). -/
theorem frameOf_txn_bits (x : Txn) : frameOf 72 (Frame.hbus x).bits = .ok (.hbus x) := by
  have hk : x.kind.toNat < 4 := x.kind.isLt
  have ha : x.addr.toNat < 4294967296 := x.addr.isLt
  have hd : x.data.toNat < 4294967296 := x.data.isLt
  have hbits : (Frame.hbus x).bits = x.kind.toNat + 4 * x.addr.toNat + 17179869184 * x.data.toNat := rfl
  generalize (Frame.hbus x).bits = n at hbits ⊢
  have ekind : BitVec.ofNat 2 n = x.kind := BitVec.eq_of_toNat_eq (by rw [BitVec.toNat_ofNat]; omega)
  have eaddr : BitVec.ofNat 32 (n / 2 ^ 2) = x.addr := BitVec.eq_of_toNat_eq (by rw [BitVec.toNat_ofNat]; omega)
  have edata : BitVec.ofNat 32 (n / 2 ^ 34) = x.data := BitVec.eq_of_toNat_eq (by rw [BitVec.toNat_ofNat]; omega)
  rw [frameOf, if_neg (by decide), if_neg (by decide), if_neg (by omega), if_neg (by decide), if_neg (by omega),
    ekind, eaddr, edata]

theorem frameOf_word_bits (w : Word) : frameOf 32 w.toNat = .ok (.cmdw w) := by
  rw [frameOf, if_neg (by decide), if_neg (by decide), if_neg (Nat.not_le_of_lt w.isLt), if_pos rfl,
    BitVec.ofNat_toNat, BitVec.setWidth_eq]

theorem frameOf_bits : ∀ f : Frame, frameOf f.nbits f.bits = .ok f
  | .cmdw w => frameOf_word_bits w
  | .hbus x => frameOf_txn_bits x

theorem decodeTableWord_of_frameOf {nbits w : Nat} {f : Frame} (h : frameOf nbits w = .ok f) :
    decodeTableWord nbits w = some (decode f) := by
  rw [decodeTableWord, decodeBits, h]

/-- The round trip of the forms themselves, instruction by instruction. -/
theorem decode_encode (i : Instr) : Laws.RoundTrip.Statement i := by
  cases i with
  | buildTables => exact Laws.RoundTrip.buildTables
  | prepEncode => exact Laws.RoundTrip.prepEncode
  | prepDecode => exact Laws.RoundTrip.prepDecode
  | encode => exact Laws.RoundTrip.encode
  | decode => exact Laws.RoundTrip.decode
  | illegal w => exact Laws.RoundTrip.illegal w
  | regRd a => exact Laws.RoundTrip.regRd a
  | regWr a d => exact Laws.RoundTrip.regWr a d
  | memRd a => exact Laws.RoundTrip.memRd a
  | memWr a d => exact Laws.RoundTrip.memWr a d

/-- Settles O10: the bits give the encoded form back, and the form the instruction. -/
theorem encodedInstructionsDecodeBack : Obligations.EncodedInstructionsDecodeBack := by
  intro i hi
  rw [decodeTableWord_of_frameOf (frameOf_bits _), decode_encode i hi]

/-- Settles O9: each command word is its instruction's encoding (R71, R72), and eight bits are the transaction of their `KIND`
(R74). -/
theorem sampleWordsDecode : Obligations.SampleWordsDecode :=
  have cmd := encodedInstructionsDecodeBack
  ⟨cmd .buildTables rfl, cmd .prepEncode rfl, cmd .prepDecode rfl, cmd .encode rfl, cmd .decode rfl,
    cmd (.illegal 0x00000000#32) rfl, cmd (.illegal 0x00000006#32) rfl, cmd (.illegal 0x0000000F#32) rfl,
    cmd (.illegal 0x00000010#32) rfl, cmd (.illegal 0x00000014#32) rfl, cmd (.illegal 0x80000005#32) rfl,
    decodeTableWord_of_frameOf (f := .hbus ⟨0b00#2, 0#32, 0#32⟩) rfl,
    decodeTableWord_of_frameOf (f := .hbus ⟨0b01#2, 0#32, 0#32⟩) rfl,
    decodeTableWord_of_frameOf (f := .hbus ⟨0b10#2, 0#32, 0#32⟩) rfl,
    decodeTableWord_of_frameOf (f := .hbus ⟨0b11#2, 0#32, 0#32⟩) rfl⟩

/-! Command words by opcode -/

section CommandWords
variable {w : Word}

theorem decodeWord_reserved (h : reservedWord w = true) : decodeWord w = .illegal w := Laws.RoundTrip.illegal w h

theorem reservedWord_iff : reservedWord w = true ↔
    w.extractLsb' 4 28 ≠ 0#28 ∨ w.extractLsb' 0 4 = 0#4 ∨ 6 ≤ (w.extractLsb' 0 4).toNat := by
  simp [reservedWord, BitVec.ule, or_assoc]

/-- With `RSVD` zero a word is its opcode (R70). -/
theorem eq_setWidth_opcode (h : w.extractLsb' 4 28 = 0#28) : w = (w.extractLsb' 0 4).setWidth 32 := by
  have hr : w.toNat / 16 % 268435456 = 0 := by
    simpa [BitVec.extractLsb'_toNat, Nat.shiftRight_eq_div_pow] using congrArg BitVec.toNat h
  have hw : w.toNat < 4294967296 := w.isLt
  apply BitVec.eq_of_toNat_eq
  simp only [BitVec.toNat_setWidth, BitVec.extractLsb'_toNat, Nat.shiftRight_zero]
  omega

theorem decodeWord_of_opcode {op : BitVec 4} (hr : w.extractLsb' 4 28 = 0#28) (ho : w.extractLsb' 0 4 = op) :
    decodeWord w = decodeWord (op.setWidth 32) := by
  rw [← ho, ← eq_setWidth_opcode hr]

end CommandWords

/-- A word is reserved or the word of one of the five commands (R71, R72). -/
theorem reserved_or_command (w : Word) : reservedWord w = true ∨
    w = Command.buildTables.word ∨ w = Command.prepEncode.word ∨ w = Command.prepDecode.word ∨
      w = Command.encode.word ∨ w = Command.decode.word := by
  by_cases hres : reservedWord w = true
  · exact Or.inl hres
  · obtain ⟨hr, h0, h6⟩ := by simpa only [reservedWord_iff, not_or, not_not] using hres
    rw [eq_setWidth_opcode hr]
    generalize w.extractLsb' 0 4 = op at h0 h6
    revert op
    decide

theorem encode_decodeWord (w : Word) : encode (decodeWord w) = .cmdw w := by
  rcases reserved_or_command w with h | rfl | rfl | rfl | rfl | rfl
  · rw [decodeWord_reserved h]; rfl
  · rfl
  · rfl
  · rfl
  · rfl
  · rfl

/-- Settles O11: with `RSVD` zero the opcode is the whole word, and every word outside the five rows is reserved. -/
theorem commandWordsDecodeByOpcode : Obligations.CommandWordsDecodeByOpcode := by
  intro w
  refine ⟨fun hr => ⟨fun h0 => ?_, decodeWord_of_opcode hr, decodeWord_of_opcode hr, decodeWord_of_opcode hr,
    decodeWord_of_opcode hr, decodeWord_of_opcode hr, fun h6 => ?_⟩, fun hr => ?_, encode_decodeWord w⟩
  · exact decodeWord_reserved (reservedWord_iff.2 (Or.inr (Or.inl h0)))
  · exact decodeWord_reserved (reservedWord_iff.2 (Or.inr (Or.inr h6)))
  · exact decodeWord_reserved (reservedWord_iff.2 (Or.inl hr))

end Sys2Proof
end

section
/-! PROOFS. The host's poll (30_encoding.md R77) and its register accesses of another width (44_host_access.md R217) as steps. -/

namespace Sys2Proof.Machine

section HostMoves
variable {s : State} {rest : List HostMove} {ts : List Agent}

/-- A poll responds with `STATUS` (70_reset_and_hazards.md R266: exact in both phases) and stays while the engine is `BUSY`. -/
theorem step_wait (h : s.fetch = hostFetch .wait rest ts s) :
    step s = .next ((s.withHost (if s.busy then .wait :: rest else rest) ts).respond s.statusWord) := by
  rw [hostFetch, statusWord_busy] at h
  exact (step_of_run h).trans (exec_regRd_status _)

theorem step_regOtherWidth (h : s.fetch = hostFetch .regOtherWidth rest ts s) : step s = .fault .reservedRegister := by
  unfold step; rw [h, hostFetch]

end HostMoves

/-- Settles O7: the two moves, each where the host is to move. -/
theorem waitPollsUntilIdle : Obligations.WaitPollsUntilIdle := by
  intro s rest
  refine ⟨fun hp hq => ?_, fun op l ts hp hq ht => ?_, fun hp hq => ?_, fun op l ts hp hq ht => ?_⟩
  · have hb : s.busy = false := (busy_eq_false s).2 hp
    rw [step_wait (fetch_host_idle hp hq), hb, if_neg Bool.false_ne_true]
  · have hb : s.busy = true := busy_of_not_idle (by simp [hp])
    rw [step_wait (fetch_host_busy hp hq ht), if_pos hb]
  · exact step_regOtherWidth (fetch_host_idle hp hq)
  · exact step_regOtherWidth (fetch_host_busy hp hq ht)

end Sys2Proof.Machine
end

section
/-! PROOFS. The two lookup tables: their inverse and case laws (40_tables.md R103), and who writes them (R104, R105). -/

namespace Sys2Proof.Machine

/-! Case (40_tables.md R101, R103) -/

/-- A letter and its lower-case form, `0x20` above it, stand for the same value (R101). -/
theorem decLookup_lowerCase {c : Byte} (h1 : 0x41 ≤ c.toNat) (h2 : c.toNat ≤ 0x5A) :
    decLookup (buildDec buildEnc) (c + 0x20#8) = decLookup (buildDec buildEnc) c := by
  have hc : (c + 0x20#8).toNat = c.toNat + 0x20 := by bv_omega
  rw [decLookup_lower (by omega) (by omega), decLookup_upper h1 h2, hc,
    show c.toNat + 0x20 - 0x61 = c.toNat - 0x41 by omega]

/-- The first 26 characters of the alphabet are the upper-case letters (R100). -/
theorem encLookup_letter {v : Quint} (hv : v.toNat ≤ 25) :
    0x41 ≤ (encLookup buildEnc v).toNat ∧ (encLookup buildEnc v).toNat ≤ 0x5A := by
  rw [tablesHold_built.upper v hv, BitVec.toNat_ofNat, Nat.mod_eq_of_lt (by omega)]
  omega

/-- Settles O23: the three laws of R103, which the built tables satisfy. -/
theorem tablesAreInverse : Obligations.TablesAreInverse := by
  intro s hi
  rw [hi.et_built, hi.dt_built]
  refine ⟨decLookup_encLookup, fun v hv => ?_, decLookup_padding⟩
  obtain ⟨h1, h2⟩ := encLookup_letter hv
  rw [decLookup_lowerCase h1 h2, decLookup_encLookup]

/-- Settles O22: the state `BUILD_TABLES` answers, whose tables the invariant already asks for. -/
theorem buildTablesRewritesTheTables : Obligations.BuildTablesRewritesTheTables :=
  ⟨Laws.RoundTrip.buildTables rfl, fun s => ⟨_, execBuildTables_eq s, tablesHold_built, rfl,
    fun hi => ⟨hi.et_built.symm, hi.dt_built.symm⟩⟩⟩

/-! The tables after an instruction -/

section Tables
variable {s t : State}

theorem grow_tables {proj : Nat} (h : s.grow proj = some t) : t.et = s.et ∧ t.dt = s.dt := by
  obtain ⟨-, -, -, -, -, -, -, -, het, hdt, -⟩ := grow_frame h
  exact ⟨het, hdt⟩

theorem growAndComplete_tables {proj : Nat} (h : growAndComplete s proj = .next t) : t.et = s.et ∧ t.dt = s.dt := by
  rcases growAndComplete_cases s proj with ⟨-, e⟩ | ⟨u, hu, e⟩ <;> rw [e] at h <;> cases h
  · exact ⟨rfl, rfl⟩
  · rw [complete_et, complete_dt]; exact grow_tables hu

theorem execEncode_tables (h : execEncode s = .next t) : t.et = s.et ∧ t.dt = s.dt := by
  rcases execEncode_cases s with ⟨-, e⟩ | ⟨u, hu, ⟨-, e⟩ | ⟨bs, -, e⟩⟩ <;> rw [e] at h <;> cases h
  · exact ⟨rfl, rfl⟩
  · rw [succeedCodec_et, succeedCodec_dt]; exact grow_tables hu

theorem execDecode_tables (h : execDecode s = .next t) : t.et = s.et ∧ t.dt = s.dt := by
  rcases execDecode_cases s with ⟨-, e⟩ | ⟨-, -, e⟩ | ⟨u, -, hu, ⟨-, e⟩ | ⟨cs, -, ⟨-, e⟩ | ⟨out, -, e⟩⟩⟩ <;>
    rw [e] at h <;> cases h
  · exact ⟨rfl, rfl⟩
  · exact ⟨rfl, rfl⟩
  · rw [failCodec_et, failCodec_dt, setMem_et, setMem_dt]; exact grow_tables hu
  · rw [succeedCodec_et, succeedCodec_dt]; exact grow_tables hu

theorem exec_transaction_tables {i : Instr} (hi : isTransaction i = true) (h : exec i s = .next t) :
    t.et = s.et ∧ t.dt = s.dt := by
  rcases exec_transaction_next hi h with
    ⟨d, -, -, rfl⟩ | ⟨d, -, -, rfl⟩ | ⟨-, -, ⟨-, v, k, rfl⟩ | ⟨-, m, rfl⟩⟩
  · exact ⟨rfl, rfl⟩
  · exact ⟨rfl, rfl⟩
  · exact ⟨rfl, rfl⟩
  · exact ⟨rfl, rfl⟩

theorem exec_tables {i : Instr} (h : exec i s = .next t) (hne : i ≠ .buildTables) : t.et = s.et ∧ t.dt = s.dt := by
  cases i with
  | buildTables => exact absurd rfl hne
  | prepEncode => exact growAndComplete_tables h
  | prepDecode => exact growAndComplete_tables h
  | encode => exact execEncode_tables h
  | decode => exact execDecode_tables h
  | illegal w => cases h; exact ⟨rfl, rfl⟩
  | _ => exact exec_transaction_tables rfl h

end Tables

/-- Settles O24: every other instruction keeps both tables. -/
theorem onlyBuildTablesWritesTables : Obligations.OnlyBuildTablesWritesTables := by
  intro i s t h
  refine ⟨exec_tables h, ?_⟩
  rintro rfl
  rw [show exec .buildTables s = _ from execBuildTables_eq s] at h
  cases h
  exact tablesHold_built

end Sys2Proof.Machine
end

section
/-! PROOFS. `DECODE` does not see case (42_decode.md R159): the decoder on a changed input, two runs of the command side by side, and
the upper-case string. -/

namespace Sys2Proof.Machine

/-! Changing characters the decoder cannot tell apart -/

section Unpacking
variable {dt : DecTable} {f : Byte → Byte}

theorem lookupAll_map (hval : ∀ c, decLookup dt (f c) = decLookup dt c) (cs : List Byte) :
    lookupAll dt (cs.map f) = lookupAll dt cs := by
  induction cs with
  | nil => rfl
  | cons c cs ih => rw [List.map_cons, lookupAll, lookupAll, hval, ih]

theorem padRun_map (hpad : ∀ c, f c = padChar ↔ c = padChar) (cs : List Byte) : padRun (cs.map f) = padRun cs := by
  have hf : (fun c => c == padChar) ∘ f = fun c => c == padChar := by
    funext c; rw [Function.comp_apply, Bool.eq_iff_iff, beq_iff_eq, beq_iff_eq, hpad]
  rw [padRun, padRun, ← List.map_reverse, List.takeWhile_map, List.length_map, hf]

theorem unpackGroup_map (hval : ∀ c, decLookup dt (f c) = decLookup dt c) (hpad : ∀ c, f c = padChar ↔ c = padChar)
    (last : Bool) (cs : List Byte) : unpackGroup dt last (cs.map f) = unpackGroup dt last cs := by
  rw [unpackGroup, unpackGroup, padRun_map hpad, ← List.map_take, lookupAll_map hval]

theorem unpackGroups_map (hval : ∀ c, decLookup dt (f c) = decLookup dt c) (hpad : ∀ c, f c = padChar ↔ c = padChar)
    (g : Nat) (cs : List Byte) : unpackGroups dt g (cs.map f) = unpackGroups dt g cs := by
  induction g generalizing cs with
  | zero => rfl
  | succ g ih =>
    rw [unpackGroups_succ, unpackGroups_succ, ← List.map_take, ← List.map_drop, unpackGroup_map hval hpad, ih]

/-- `DECODE` looks at a character through `DT` and by whether it is `'='`, and in no other way. -/
theorem decodeChars_map (hval : ∀ c, decLookup dt (f c) = decLookup dt c) (hpad : ∀ c, f c = padChar ↔ c = padChar)
    (cs : List Byte) : decodeChars dt (cs.map f) = decodeChars dt cs := by
  rw [decodeChars, decodeChars, List.length_map, unpackGroups_map hval hpad]

end Unpacking

/-! Two runs of `DECODE` -/

/-- Two completed commands give the same code, `OUT_PTR`, `OUT_LEN` and output bytes. -/
structure SameOutput (t v : State) : Prop where
  err : v.err = t.err
  outPtr : v.outPtr = t.outPtr
  outLen : v.outLen = t.outLen
  bytes : ∀ m, m < t.outLen.toNat → v.byteAt (t.outPtr.toNat + m) = t.byteAt (t.outPtr.toNat + m)

section Runs
variable {s t u v : State} {proj : Nat} {cs out : List Byte}

theorem sameOutput_failCodec (s u : State) (code : ErrCode) : SameOutput (s.failCodec code) (u.failCodec code) where
  err := rfl
  outPtr := rfl
  outLen := rfl
  bytes _ hm := absurd hm (Nat.not_lt_zero _)

/-- The output of a codec command that succeeds is read back at `OUT_PTR` (41_encode.md R128, 42_decode.md R162). -/
theorem succeedCodec_byteAt (hfit : s.outBase + out.length ≤ 2 ^ 32) {m : Nat} (hm : m < (s.succeedCodec out).outLen.toNat) :
    (s.succeedCodec out).byteAt ((s.succeedCodec out).outPtr.toNat + m) = out[m]? := by
  have hlen : m < out.length := by
    rw [succeedCodec_outLen, BitVec.toNat_ofNat] at hm
    exact Nat.lt_of_lt_of_le hm (Nat.mod_le _ _)
  rw [State.byteAt, succeedCodec_mem, succeedCodec_outPtr, BitVec.toNat_ofNat, Nat.mod_eq_of_lt (by omega),
    read_writeBytes, if_pos (by omega), Nat.add_sub_cancel_left]

theorem sameOutput_succeedCodec (hbase : u.outBase = s.outBase) (hfit : s.outBase + out.length ≤ 2 ^ 32) :
    SameOutput (s.succeedCodec out) (u.succeedCodec out) where
  err := rfl
  outPtr := by rw [succeedCodec_outPtr, succeedCodec_outPtr, hbase]
  outLen := rfl
  bytes m hm := by
    have hu := succeedCodec_byteAt (s := u) (hbase ▸ hfit) hm
    rw [succeedCodec_outPtr, hbase] at hu
    rw [succeedCodec_byteAt hfit hm, succeedCodec_outPtr, hu]

/-- Under the invariant the region can always hold its present pages, so `OutOfMemory` rests on the limit alone (43_growth.md R196). -/
theorem grow_eq_none_iff_not_fits (hi : s.Inv) : s.grow proj = none ↔ ¬ s.Fits proj := by
  refine ⟨fun hg hfit => ?_, notfits_grow hi.pages_le⟩
  obtain ⟨t, ht⟩ := fits_grow hfit
  exact absurd (hg.symm.trans ht) nofun

/-- Two regions with the same parameters run out of memory together, however many pages each has. -/
theorem grow_eq_none_congr (hs : s.Inv) (hu : u.Inv) (hp : u.params = s.params) :
    u.grow proj = none ↔ s.grow proj = none := by
  rw [grow_eq_none_iff_not_fits hu, grow_eq_none_iff_not_fits hs, State.Fits, State.Fits, State.pagesNeeded,
    State.pagesNeeded, hp]

/-- A growth step keeps the input a command reads (43_growth.md R198). -/
theorem grow_readInput (hi : s.Inv) (hg : s.grow proj = some t) : t.readInput = s.readInput := by
  rw [State.readInput, State.readInput, grow_inBase hg, grow_operand hg]
  exact readBytes_congr fun i _ => grow_read_inv hi hg _

/-- What `DECODE` writes lies within 2^32 (43_growth.md R192, R197, 00_scope.md R7). -/
theorem decode_output_le (hi : s.Inv) (hg : s.grow (projDec s.operand) = some t) (hr : t.readInput = some cs) {dt : DecTable}
    (hd : decodeChars dt cs = some out) : t.outBase + out.length ≤ 2 ^ 32 := by
  have hlen : out.length ≤ 5 * (s.operand / 8) := by
    have := decodeChars_length_le hd
    rwa [readBytes_length hr, grow_operand hg] at this
  have hcap := grow_outBase_le hi hg (projDec_covers s.operand)
  have hmax := capacity_le (grow_inv hi hg)
  omega

/-! `DECODE`, ending by ending (60_exceptions.md R236) -/

theorem execDecode_invalidLength (h8 : s.operand % 8 ≠ 0) : execDecode s = .next (s.failCodec .invalidLength) := by
  rw [execDecode, if_pos h8]

theorem execDecode_outOfMemory (h8 : s.operand % 8 = 0) (hg : s.grow (projDec s.operand) = none) :
    execDecode s = .next (s.failCodec .outOfMemory) := by
  rw [execDecode, if_neg (not_not_intro h8), hg]

theorem execDecode_invalidCharacter (h8 : s.operand % 8 = 0) (hg : s.grow (projDec s.operand) = some t)
    (hr : t.readInput = some cs) (hd : decodeChars t.dt cs = none) :
    execDecode s = .next ((t.setMem (t.mem.clear t.outBase (decodeReach t.operand))).failCodec .invalidCharacter) := by
  simp only [execDecode, h8, hg, hr, hd, ne_eq, not_true_eq_false, if_false]

theorem execDecode_success (h8 : s.operand % 8 = 0) (hg : s.grow (projDec s.operand) = some t)
    (hr : t.readInput = some cs) (hd : decodeChars t.dt cs = some out) : execDecode s = .next (t.succeedCodec out) := by
  simp only [execDecode, h8, hg, hr, hd, ne_eq, not_true_eq_false, if_false]

/-- Two `DECODE`s with the same parameters and operand, whose inputs unpack alike, give the same result, whatever else the two states
hold (42_decode.md R162). -/
theorem execDecode_sameOutput (hs : s.Inv) (hu : u.Inv) (hp : u.params = s.params) (hn : u.operand = s.operand)
    (hin : ∀ cs, s.readInput = some cs → ∃ ds, u.readInput = some ds ∧ decodeChars u.dt ds = decodeChars s.dt cs)
    (h : execDecode s = .next t) : ∃ v, execDecode u = .next v ∧ SameOutput t v := by
  rcases execDecode_cases s with ⟨h8, e⟩ | ⟨h8, hg, e⟩ | ⟨s', h8, hg, ⟨-, e⟩ | ⟨cs, hr, hend⟩⟩
  · cases e.symm.trans h
    exact ⟨_, execDecode_invalidLength (hn ▸ h8), sameOutput_failCodec ..⟩
  · cases e.symm.trans h
    have hgu : u.grow (projDec u.operand) = none := by rwa [hn, grow_eq_none_congr hs hu hp]
    exact ⟨_, execDecode_outOfMemory (hn ▸ h8) hgu, sameOutput_failCodec ..⟩
  · cases e.symm.trans h
  · obtain ⟨u', hgu⟩ : ∃ u', u.grow (projDec u.operand) = some u' := by
      rw [← Option.ne_none_iff_exists', hn, Ne, grow_eq_none_congr hs hu hp, hg]; nofun
    obtain ⟨ds, hrd, hd⟩ := hin cs (by rwa [← grow_readInput hs hg])
    rw [← grow_readInput hu hgu] at hrd
    rw [← (grow_tables hgu).2, ← (grow_tables hg).2] at hd
    rcases hend with ⟨hc, e⟩ | ⟨out, hc, e⟩
    · cases e.symm.trans h
      exact ⟨_, execDecode_invalidCharacter (hn ▸ h8) hgu hrd (hd.trans hc), sameOutput_failCodec ..⟩
    · cases e.symm.trans h
      have hbase : u'.outBase = s'.outBase := by
        rw [grow_outBase hgu, grow_outBase hg, State.outBase, State.outBase, State.inBase, State.inBase, hp, hn]
      exact ⟨_, execDecode_success (hn ▸ h8) hgu hrd (hd.trans hc),
        sameOutput_succeedCodec hbase (decode_output_le hs hg hr hc)⟩

end Runs

/-! The upper-case string -/

/-- A character with its case folded: `'a'..'z'` become `'A'..'Z'`, `0x20` below them (40_tables.md R101). -/
def upperCase (c : Byte) : Byte :=
  if 0x61 ≤ c.toNat ∧ c.toNat ≤ 0x7A then c - 0x20#8 else c

theorem upperCase_of_upper {c : Byte} (h : c.toNat ≤ 0x5A) : upperCase c = c := by
  rw [upperCase, if_neg (by omega)]

theorem upperCase_lowerCase {c : Byte} (h1 : 0x41 ≤ c.toNat) (h2 : c.toNat ≤ 0x5A) : upperCase (c + 0x20#8) = c := by
  rw [upperCase, if_pos (by bv_omega), BitVec.add_sub_cancel]

/-- A character is not changed by folding, or is the lower-case form of the letter it folds to. -/
theorem upperCase_cases (c : Byte) : upperCase c = c ∨
    ∃ l : Byte, 0x41 ≤ l.toNat ∧ l.toNat ≤ 0x5A ∧ c = l + 0x20#8 ∧ upperCase c = l := by
  unfold upperCase
  split_ifs with h
  · exact Or.inr ⟨c - 0x20#8, by bv_omega, by bv_omega, by rw [BitVec.sub_add_cancel], rfl⟩
  · exact Or.inl rfl

theorem decLookup_upperCase (c : Byte) : decLookup (buildDec buildEnc) (upperCase c) = decLookup (buildDec buildEnc) c := by
  rcases upperCase_cases c with h | ⟨l, h1, h2, rfl, h⟩ <;> rw [h]
  exact (decLookup_lowerCase h1 h2).symm

/-- `'='` has no case (R159). -/
theorem upperCase_eq_padChar (c : Byte) : upperCase c = padChar ↔ c = padChar := by
  rcases upperCase_cases c with h | ⟨l, h1, h2, rfl, h⟩ <;> rw [h]
  have hl : l ≠ padChar := by rintro rfl; exact absurd h1 (by decide)
  have hc : l + 0x20#8 ≠ padChar := by rw [padChar]; bv_omega
  exact iff_of_false hl hc

theorem decodeChars_upperCase (cs : List Byte) :
    decodeChars (buildDec buildEnc) (cs.map upperCase) = decodeChars (buildDec buildEnc) cs :=
  decodeChars_map decLookup_upperCase upperCase_eq_padChar cs

/-- Settles O41: both inputs have the same upper-case string, which unpacks as each of them does. -/
theorem decodeIgnoresCase : Obligations.DecodeIgnoresCase := by
  intro s u t n c d hs hu hp hsn hun hc hd hcase h
  have hfold : ((List.range n.toNat).map d).map upperCase = ((List.range n.toNat).map c).map upperCase := by
    rw [List.map_map, List.map_map]
    refine List.map_congr_left fun i hi => ?_
    rcases hcase i (List.mem_range.1 hi) with e | ⟨h1, h2, e⟩ <;> rw [Function.comp_apply, Function.comp_apply, e]
    rw [upperCase_lowerCase h1 h2, upperCase_of_upper h2]
  have hin : ∀ cs, s.readInput = some cs → ∃ ds, u.readInput = some ds ∧ decodeChars u.dt ds = decodeChars s.dt cs := by
    intro cs hcs
    rw [readInput_eq (operand_of_busy s hsn) hc, Option.some.injEq] at hcs
    refine ⟨_, readInput_eq (operand_of_busy u hun) hd, ?_⟩
    rw [← hcs, hu.dt_built, hs.dt_built, ← decodeChars_upperCase, hfold, decodeChars_upperCase]
  have hn : u.operand = s.operand := (operand_of_busy u hun).trans (operand_of_busy s hsn).symm
  obtain ⟨v, hv, herr, hptr, hlen, hbytes⟩ := execDecode_sameOutput hs hu hp hn hin h
  exact ⟨v, hv, herr, hptr, hlen, hbytes⟩

end Sys2Proof.Machine
end

section
/-! PROOFS. `ENCODE`: its output and its frame (41_encode.md R120 to R128), the alphabet (R127), and two runs of the codec on one input
(R129, 42_decode.md R162). -/

namespace Sys2Proof.Machine

section Encoder
variable {s t u : State} {n : Nat} {et : EncTable} {bs : List Byte}

/-! `ENCODE`, ending by ending (60_exceptions.md R236) -/

theorem execEncode_outOfMemory (hg : s.grow (projEnc s.operand) = none) : execEncode s = .next (s.failCodec .outOfMemory) := by
  rw [execEncode, hg]

theorem execEncode_success (hg : s.grow (projEnc s.operand) = some u) (hr : u.readInput = some bs) :
    execEncode s = .next (u.succeedCodec (encodeBytes u.et bs)) := by
  simp only [execEncode, hg, hr]

/-- Under the invariant, an `ENCODE` that answers a state ran out of memory, or wrote the packing of the input it was given. -/
theorem execEncode_next (hi : s.Inv) (h : execEncode s = .next t) :
    (s.grow (projEnc s.operand) = none ∧ t = s.failCodec .outOfMemory) ∨
      ∃ u bs, s.grow (projEnc s.operand) = some u ∧ s.readInput = some bs ∧ t = u.succeedCodec (encodeBytes buildEnc bs) := by
  rcases execEncode_cases s with ⟨hg, e⟩ | ⟨u, hu, ⟨-, e⟩ | ⟨bs, hbs, e⟩⟩ <;> cases e.symm.trans h
  · exact Or.inl ⟨hg, rfl⟩
  · exact Or.inr ⟨u, bs, hu, (grow_readInput hi hu).symm.trans hbs, by rw [(grow_inv hi hu).et_built]⟩

/-- What `ENCODE` writes lies within 2^32 (43_growth.md R191, R197, 00_scope.md R7). -/
theorem encode_output_le (hi : s.Inv) (hg : s.grow (projEnc s.operand) = some u) (hr : s.readInput = some bs) :
    u.outBase + (encodeBytes et bs).length ≤ 2 ^ 32 := by
  rw [encodeBytes_length, readBytes_length hr]
  exact Nat.le_trans (grow_outBase_le hi hg (projEnc_covers _)) (capacity_le (grow_inv hi hg))

/-! The output -/

/-- The packing of `bs` stands in `t`, by the output registers, behind the input of `s` (41_encode.md R120, R126, R128). -/
structure Encoded (s : State) (bs : List Byte) (t : State) : Prop where
  outPtr : t.outPtr.toNat = s.outBase
  outLen : t.outLen.toNat = encLength bs.length
  byteAt : ∀ m, m < encLength bs.length → t.byteAt (t.outPtr.toNat + m) = (encodeBytes buildEnc bs)[m]?

/-- Exactly the empty input has an empty encoding. -/
theorem encLength_eq_zero : encLength n = 0 ↔ n = 0 := by
  unfold encLength divUp; omega

/-- The output base and the output length are 32-bit values: the region ends at 2^32, and an output behind an empty input is empty. -/
theorem encoded_succeedCodec (hi : s.Inv) (hg : s.grow (projEnc s.operand) = some u) (hr : s.readInput = some bs) :
    Encoded s bs (u.succeedCodec (encodeBytes buildEnc bs)) := by
  have hfit := encode_output_le (et := buildEnc) hi hg hr
  have hlen : (encodeBytes buildEnc bs).length = encLength bs.length := encodeBytes_length _ _
  have hn : bs.length = s.operand := readBytes_length hr
  have hbase : u.outBase = s.inBase + s.operand := grow_outBase hg
  have hin : s.inBase < 2 ^ 32 := BitVec.isLt _
  have hzero : encLength bs.length = 0 ↔ bs.length = 0 := encLength_eq_zero
  have hout : (u.succeedCodec (encodeBytes buildEnc bs)).outLen.toNat = encLength bs.length := by
    rw [succeedCodec_outLen, BitVec.toNat_ofNat, hlen, Nat.mod_eq_of_lt (by omega)]
  refine ⟨?_, hout, fun m hm => succeedCodec_byteAt hfit (hout.symm ▸ hm)⟩
  rw [succeedCodec_outPtr, BitVec.toNat_ofNat, Nat.mod_eq_of_lt (by omega), grow_outBase hg]

/-- A successful `ENCODE` read its input and holds its packing. -/
theorem execEncode_encoded (hi : s.Inv) (h : execEncode s = .next t) (ht : t.err = .none) :
    ∃ bs, s.readInput = some bs ∧ Encoded s bs t := by
  rcases execEncode_next hi h with ⟨-, rfl⟩ | ⟨u, bs, hu, hbs, rfl⟩
  · cases ht
  · exact ⟨bs, hbs, encoded_succeedCodec hi hu hbs⟩

/-- An `ENCODE` that fits and whose input is written succeeds. -/
theorem execEncode_completes (hi : s.Inv) (hfit : s.Fits (projEnc s.operand)) (hr : s.readInput = some bs) :
    ∃ t, execEncode s = .next t ∧ Completed t .none ∧ Encoded s bs t := by
  obtain ⟨u, hu⟩ := fits_grow hfit
  have e := execEncode_success hu ((grow_readInput hi hu).trans hr)
  rw [(grow_inv hi hu).et_built] at e
  exact ⟨_, e, ⟨rfl, rfl, rfl⟩, encoded_succeedCodec hi hu hr⟩

/-- Output character `m` of an encoding (41_encode.md R122, R123). -/
theorem Encoded.char (h : Encoded s bs t) {m : Nat} (hm : m < encLength bs.length) :
    t.byteAt (t.outPtr.toNat + m) =
      if m < (8 * bs.length + 4) / 5 then
        some (encLookup buildEnc (window (groupOfBytes ((bs.drop (5 * (m / 8))).take 5)) (m % 8)))
      else some padChar := by
  rw [h.byteAt m hm, encodeBytes_get _ _ _ hm]

end Encoder

/-- Settles O30: the windows of the groups are the 5-bit windows of the whole input. -/
theorem encodeWritesThePackedCharacters : Obligations.EncodeWritesThePackedCharacters := by
  intro s n b hi hp hfit hb
  have hn : s.operand = n.toNat := operand_of_busy s hp
  obtain ⟨t, ht, hcomp, henc⟩ := execEncode_completes hi (hn.symm ▸ hfit) (readInput_eq hn hb)
  have hlen : ((List.range n.toNat).map b).length = n.toNat := by rw [List.length_map, List.length_range]
  have hget : ∀ i, i < ((List.range n.toNat).map b).length → ((List.range n.toNat).map b)[i]? = some (b i) := fun i h => by
    rw [List.getElem?_map, List.getElem?_range (hlen ▸ h), Option.map_some]
  have hstream := fun m => window_stream _ b hget m
  have hchar := fun m => henc.char (m := m)
  have hout := henc.outLen
  rw [hlen] at hstream hchar hout
  refine ⟨t, ht, hcomp, by rw [henc.outPtr, State.outBase, State.inBase, hn], hout, fun m v hm hv => ?_, fun m hm hm' => ?_⟩
  · rw [hchar m (by unfold encLength divUp; omega), if_pos hm, hi.et_built]
    congr 2
    exact quint_ext fun j hj => (hstream m j hj).trans (hv j hj).symm
  · rw [hchar m hm', if_neg (by omega), padChar]

/-! The frame -/

section Frame
variable {s t : State}

/-- A command other than `BUILD_TABLES` writes neither the tables, nor the registers of the host, nor the host's side of the bus. -/
theorem exec_sameButCodec {i : Instr} (hi : isTransaction i = false) (hne : i ≠ .buildTables) (h : exec i s = .next t) :
    SameButCodec s t := by
  obtain ⟨-, ⟨hlen, hrdata, hdraws, hready, hparams, hqueue, hturns⟩, -⟩ := exec_command_next hi h
  obtain ⟨het, hdt⟩ := exec_tables h hne
  exact ⟨hparams, hlen, hready, het, hdt, hrdata, hqueue, hturns, hdraws⟩

/-- The output of a codec command covers no byte outside its run. -/
theorem succeedCodec_byteAt_outside {out : List Byte} {a : Nat} (ha : a < s.outBase ∨ s.outBase + out.length ≤ a) :
    (s.succeedCodec out).byteAt a = s.byteAt a := by
  rw [State.byteAt, succeedCodec_mem, read_writeBytes, if_neg (by omega), State.byteAt]

end Frame

/-- Settles O31: a failure writes the result alone, and a success the run of the packing, with the growth step's frame. -/
theorem encodeChangesOnlyItsOutput : Obligations.EncodeChangesOnlyItsOutput := by
  intro s t n hi hp h
  have hn : s.operand = n.toNat := operand_of_busy s hp
  refine ⟨exec_sameButCodec (i := .encode) rfl nofun h, ?_⟩
  rcases execEncode_next hi h with ⟨-, rfl⟩ | ⟨u, bs, hu, hbs, rfl⟩
  · exact ⟨Or.inr ⟨rfl, rfl, rfl⟩, rfl, fun _ => ⟨rfl, rfl, fun _ => rfl⟩, nofun⟩
  · refine ⟨Or.inl ⟨rfl, rfl, rfl⟩, ?_, fun hne => absurd rfl hne, fun _ a ha => ?_⟩
    · rw [succeedCodec_err, if_pos rfl, succeedCodec_pages, grow_pages hu, hn]
    · rw [succeedCodec_byteAt_outside, State.byteAt, grow_read_inv hi hu, State.byteAt]
      rwa [encodeBytes_length, readBytes_length hbs, hn, grow_outBase hu]

/-! The alphabet -/

/-- The last six characters of the alphabet are the digits `'2'` to `'7'` (40_tables.md R100). -/
theorem encLookup_digit {v : Quint} (hv : 26 ≤ v.toNat) :
    0x32 ≤ (encLookup buildEnc v).toNat ∧ (encLookup buildEnc v).toNat ≤ 0x37 := by
  have := v.isLt
  rw [tablesHold_built.digit v hv, BitVec.toNat_ofNat, Nat.mod_eq_of_lt (by omega)]
  omega

theorem encLookup_alphabet (v : Quint) :
    (0x41 ≤ (encLookup buildEnc v).toNat ∧ (encLookup buildEnc v).toNat ≤ 0x5A) ∨
      (0x32 ≤ (encLookup buildEnc v).toNat ∧ (encLookup buildEnc v).toNat ≤ 0x37) := by
  rcases Nat.lt_or_ge v.toNat 26 with hv | hv
  · exact Or.inl (encLookup_letter (by omega))
  · exact Or.inr (encLookup_digit hv)

/-- Settles O32: a data character is in the alphabet, to which `'='` does not belong. -/
theorem encodedOutputStaysInTheAlphabet : Obligations.EncodedOutputStaysInTheAlphabet := by
  intro s t n hi hp h ht m hm
  obtain ⟨bs, hbs, henc⟩ := execEncode_encoded hi h ht
  have hlen : bs.length = n.toNat := (readBytes_length hbs).trans (operand_of_busy s hp)
  have hchar := henc.char (m := m) (by rw [hlen]; exact hm)
  rw [hlen] at hchar
  by_cases hdata : m < (8 * n.toNat + 4) / 5
  · rw [if_pos hdata] at hchar
    refine ⟨_, hchar, ?_, iff_of_false (encLookup_ne_padding _) (by omega)⟩
    rw [← or_assoc]; exact Or.inl (encLookup_alphabet _)
  · rw [if_neg hdata] at hchar
    exact ⟨padChar, hchar, Or.inr (Or.inr rfl), iff_of_true rfl (by omega)⟩

/-! Two runs on one input -/

section Runs
variable {s t u : State}

/-- Two `ENCODE`s with the same parameters, operand and input bytes give the same result, whatever else the two states hold (R129). -/
theorem execEncode_sameOutput (hs : s.Inv) (hu : u.Inv) (hp : u.params = s.params) (hn : u.operand = s.operand)
    (hin : u.readInput = s.readInput) (h : execEncode s = .next t) : ∃ v, execEncode u = .next v ∧ SameOutput t v := by
  rcases execEncode_next hs h with ⟨hg, rfl⟩ | ⟨s', bs, hg, hbs, rfl⟩
  · have hgu : u.grow (projEnc u.operand) = none := by rwa [hn, grow_eq_none_congr hs hu hp]
    exact ⟨_, execEncode_outOfMemory hgu, sameOutput_failCodec ..⟩
  · obtain ⟨u', hgu⟩ : ∃ u', u.grow (projEnc u.operand) = some u' := by
      rw [← Option.ne_none_iff_exists', hn, Ne, grow_eq_none_congr hs hu hp, hg]; nofun
    have e := execEncode_success hgu ((grow_readInput hu hgu).trans (hin.trans hbs))
    rw [(grow_inv hu hgu).et_built] at e
    have hbase : u'.outBase = s'.outBase := by
      rw [grow_outBase hgu, grow_outBase hg, State.outBase, State.outBase, State.inBase, State.inBase, hp, hn]
    exact ⟨_, e, sameOutput_succeedCodec hbase (encode_output_le hs hg hbs)⟩

/-- Two states with the same parameters and operand, whose input areas agree, read the same input. -/
theorem readInput_congr (hp : u.params = s.params) (hn : u.operand = s.operand)
    (hb : ∀ i, i < s.operand → u.byteAt (s.inBase + i) = s.byteAt (s.inBase + i)) : u.readInput = s.readInput := by
  have hbase : u.inBase = s.inBase := by rw [State.inBase, State.inBase, hp]
  rw [State.readInput, State.readInput, hbase, hn]
  exact readBytes_congr hb

end Runs

/-- Settles O33: the input read is the same, and with it every ending of the command. -/
theorem codecDependsOnItsInputAlone : Obligations.CodecDependsOnItsInputAlone := by
  intro s u t op n hs hu hop hsn hun hp hb h
  have hos : s.operand = n.toNat := operand_of_busy s hsn
  have hn : u.operand = s.operand := (operand_of_busy u hun).trans hos.symm
  have hin : u.readInput = s.readInput := readInput_congr hp hn (hos.symm ▸ hb)
  have hrun : ∃ v, exec op.instr u = .next v ∧ SameOutput t v := by
    rcases hop with rfl | rfl
    · exact execEncode_sameOutput hs hu hp hn hin h
    · refine execDecode_sameOutput hs hu hp hn (fun cs hcs => ⟨cs, hin.trans hcs, ?_⟩) h
      rw [hs.dt_built, hu.dt_built]
  obtain ⟨v, hv, herr, hptr, hlen, hbytes⟩ := hrun
  exact ⟨v, hv, herr, hptr, hlen, hbytes⟩

end Sys2Proof.Machine
end

section
/-! PROOFS. Decoding an encoding gives the input back (42_decode.md R163): group by group, then command by command. -/

namespace Sys2Proof.Machine

section Groups
variable {et : EncTable} {bs : List Byte}

/-! One group -/

/-- The trailing run of `'='` after characters that are not `'='` (42_decode.md R152). -/
theorem padRun_append_replicate {cs : List Byte} (h : ∀ c ∈ cs, c ≠ padChar) (p : Nat) :
    padRun (cs ++ List.replicate p padChar) = p := by
  have hnil : cs.reverse.takeWhile (fun c => c == padChar) = [] := by
    cases hr : cs.reverse with
    | nil => rfl
    | cons c l =>
      have hc : c ∈ cs := List.mem_reverse.1 (hr ▸ List.mem_cons_self)
      rw [List.takeWhile_cons_of_neg (by simpa using h c hc)]
  rw [padRun, List.reverse_append, List.reverse_replicate, List.takeWhile_append_of_pos (by simp), hnil, List.append_nil,
    List.length_replicate]

/-- Encoded values look up as themselves (40_tables.md R103). -/
theorem lookupAll_map_encLookup (vs : List Quint) : lookupAll (buildDec buildEnc) (vs.map (encLookup buildEnc)) = some vs := by
  induction vs with
  | nil => rfl
  | cons v vs ih => rw [List.map_cons, lookupAll, decLookup_encLookup, ih]

/-- The first `c` windows of a 40-bit value (41_encode.md R122). -/
def windows (c : Nat) (v : Group) : List Quint := (List.range c).map (window v)

theorem windows_getD {c k : Nat} (v : Group) (hk : k < c) : (windows c v).getD k 0#5 = window v k := by
  rw [windows, List.getD_eq_getElem?_getD, List.getElem?_map, List.getElem?_range hk]; rfl

/-- A group is the characters of its windows, then `'='` (R122, R123). -/
theorem packGroup_eq_windows (c : Nat) :
    packGroup et c bs = (windows c (groupOfBytes bs)).map (encLookup et) ++ List.replicate (8 - c) padChar := by
  rw [packGroup, windows, List.map_map]; rfl

/-- Gathering the first `c` windows of a value keeps its first `5c` bits (42_decode.md R156). -/
theorem groupOfQuints_windows_bit {c x : Nat} (v : Group) (hc : c ≤ 8) (hx : x < 5 * c) :
    (groupOfQuints (windows c v)).getLsbD (39 - x) = v.getLsbD (39 - x) := by
  rw [groupOfQuints_bit _ _ (by omega), windows_getD _ (by omega), window_bit _ _ _ (by omega) (by omega), Nat.div_add_mod]

/-- Two bytes with the same bits, counted from the top, are equal. -/
theorem byte_ext {v w : Byte} (h : ∀ i, i < 8 → v.getLsbD (7 - i) = w.getLsbD (7 - i)) : v = w := by
  apply BitVec.eq_of_getLsbD_eq
  intro i hi
  have := h (7 - i) (by omega)
  rwa [show 7 - (7 - i) = i by omega] at this

/-- The windows that cover the bytes of a group emit those bytes. -/
theorem emitBytes_windows {c : Nat} (hc : c ≤ 8) (hcov : 8 * bs.length ≤ 5 * c) :
    emitBytes (groupOfQuints (windows c (groupOfBytes bs))) bs.length = bs := by
  refine List.ext_getElem (emitBytes_length _ _) fun j hj hj' => ?_
  rw [← Option.some_inj, ← List.getElem?_eq_getElem, emitBytes_get _ _ _ hj', Option.some_inj]
  refine byte_ext fun i hi => ?_
  have hdiv : (8 * j + i) / 8 = j := by omega
  have hmod : (8 * j + i) % 8 = i := by omega
  rw [emit_bit _ _ _ (by omega) hi, groupOfQuints_windows_bit _ hc (by omega), groupOfBytes_bit _ _ (by omega), hdiv, hmod,
    List.getD_eq_getElem _ _ hj']

/-- A group's padding is legal and leaves its bytes (41_encode.md R124, 42_decode.md R153, R156). -/
theorem charsOf_legal {r : Nat} (h1 : 1 ≤ r) (h5 : r ≤ 5) : legalRun (8 - charsOf r) = true ∧ bytesOf (charsOf r) = r := by
  interval_cases r <;> decide

/-- Unpacking a packed group of one to five bytes, a full one or the last, gives its bytes back. -/
theorem unpackGroup_packGroup {last : Bool} (h1 : 1 ≤ bs.length) (h5 : bs.length ≤ 5) (hlast : bs.length < 5 → last = true) :
    unpackGroup (buildDec buildEnc) last (packGroup buildEnc (charsOf bs.length) bs) = some bs := by
  obtain ⟨hlegal, hbytes⟩ := charsOf_legal h1 h5
  have hc : charsOf bs.length ≤ 8 := charsOf_le _
  have hceil : charsOf bs.length = (8 * bs.length + 4) / 5 := charsOf_eq h1 h5
  have hrun : padRun (packGroup buildEnc (charsOf bs.length) bs) = 8 - charsOf bs.length := by
    rw [packGroup_eq_windows, padRun_append_replicate]
    intro c hcm
    obtain ⟨v, -, rfl⟩ := List.mem_map.1 hcm
    exact encLookup_ne_padding v
  have hdata : lookupAll (buildDec buildEnc) ((packGroup buildEnc (charsOf bs.length) bs).take (charsOf bs.length)) =
      some (windows (charsOf bs.length) (groupOfBytes bs)) := by
    rw [packGroup_eq_windows, List.take_left' (by simp [windows]), lookupAll_map_encLookup]
  have hpad : ¬ (8 - charsOf bs.length ≠ 0 ∧ last = false) := by
    rintro ⟨hne, hf⟩
    rw [hlast (by omega)] at hf; cases hf
  simp only [unpackGroup, hrun, hlegal, Bool.not_true, Bool.false_eq_true, if_false, if_neg hpad, Nat.sub_sub_self hc, hdata,
    hbytes]
  rw [emitBytes_windows hc (by omega)]

/-! All groups -/

/-- The encoding of a nonempty input: its first group of up to five bytes, then the encoding of the rest (41_encode.md R120, R121). -/
theorem encodeBytes_eq_append (h : 1 ≤ bs.length) :
    encodeBytes et bs = packGroup et (charsOf (bs.take 5).length) (bs.take 5) ++ encodeBytes et (bs.drop 5) := by
  rcases Nat.lt_or_ge bs.length 5 with hlt | hge
  · have hdiv : bs.length / 5 = 0 := by omega
    have hmod : bs.length % 5 = bs.length := by omega
    rw [List.take_of_length_le (by omega), List.drop_of_length_le (by omega), encodeBytes, hdiv, hmod, if_neg (by omega)]
    simp [encodeBytes, packFull]
  · have hdiv : bs.length / 5 = (bs.length - 5) / 5 + 1 := by omega
    have hmod : bs.length % 5 = (bs.length - 5) % 5 := by omega
    have hfull : charsOf (bs.take 5).length = 8 := by rw [List.length_take, Nat.min_eq_left hge]; rfl
    rw [hfull, encodeBytes, encodeBytes, List.length_drop, hdiv, hmod, packFull, List.append_assoc, List.drop_drop,
      Nat.mul_add_one, Nat.add_comm 5]

/-- Unpacking the groups of an encoding gives the input back. -/
theorem unpackGroups_encodeBytes (g : Nat) (bs : List Byte) (hg : divUp bs.length 5 = g) :
    unpackGroups (buildDec buildEnc) g (encodeBytes buildEnc bs) = some bs := by
  unfold divUp at hg
  induction g generalizing bs with
  | zero => rw [List.eq_nil_of_length_eq_zero (l := bs) (by omega)]; rfl
  | succ g ih =>
    have htake : (bs.take 5).length = min 5 bs.length := List.length_take
    have hhead : unpackGroup (buildDec buildEnc) (g == 0) (packGroup buildEnc (charsOf (bs.take 5).length) (bs.take 5)) =
        some (bs.take 5) :=
      unpackGroup_packGroup (by omega) (by omega) fun _ => beq_iff_eq.2 (by omega)
    rw [unpackGroups_succ_eq_some, encodeBytes_eq_append (by omega), List.take_left' (packGroup_length ..),
      List.drop_left' (packGroup_length ..)]
    exact ⟨_, _, hhead, ih _ (by rw [List.length_drop]; omega), (List.take_append_drop 5 bs).symm⟩

/-- `DECODE`'s unpacking inverts `ENCODE`'s packing (42_decode.md R163). -/
theorem decodeChars_encodeBytes (bs : List Byte) : decodeChars (buildDec buildEnc) (encodeBytes buildEnc bs) = some bs := by
  refine unpackGroups_encodeBytes _ bs ?_
  rw [encodeBytes_length, encLength, Nat.mul_div_cancel_left _ (by decide)]

end Groups

section Commands
variable {u : State} {cs out : List Byte}

/-- A `DECODE` that fits and whose input unpacks succeeds, and its output is read back at `OUT_PTR` (42_decode.md R150, R162). -/
theorem execDecode_completes (hu : u.Inv) (h8 : u.operand % 8 = 0) (hfit : u.Fits (projDec u.operand))
    (hr : u.readInput = some cs) (hd : decodeChars (buildDec buildEnc) cs = some out) :
    ∃ v, execDecode u = .next v ∧ Completed v .none ∧ v.outLen = BitVec.ofNat 32 out.length ∧
      ∀ m, m < v.outLen.toNat → v.byteAt (v.outPtr.toNat + m) = out[m]? := by
  obtain ⟨u', hg⟩ := fits_grow hfit
  have hr' : u'.readInput = some cs := (grow_readInput hu hg).trans hr
  have hd' : decodeChars u'.dt cs = some out := by rw [(grow_inv hu hg).dt_built, hd]
  exact ⟨_, execDecode_success h8 hg hr' hd', ⟨rfl, rfl, rfl⟩, rfl,
    fun m hm => succeedCodec_byteAt (decode_output_le hu hg hr' hd') hm⟩

end Commands

/-- Settles O42: the input of the `DECODE` is the packing of the input of the `ENCODE`, which unpacks to it. -/
theorem decodeInvertsEncode : Obligations.DecodeInvertsEncode := by
  intro s t u n l b hs hu hsn hb h ht hul hl hfit hcopy
  have hn : s.operand = n.toNat := operand_of_busy s hsn
  have hop : u.operand = l.toNat := operand_of_busy u hul
  obtain ⟨bs, hbs, henc⟩ := execEncode_encoded hs h ht
  have hlen : bs.length = n.toNat := (readBytes_length hbs).trans hn
  have hl' : l.toNat = encLength bs.length := by rw [hl, hlen]; rfl
  have hread : u.readInput = some (encodeBytes buildEnc bs) := by
    rw [State.readInput, readBytes_eq_some, encodeBytes_length, hop, hl']
    exact ⟨rfl, fun m hm => (hcopy m (hl'.symm ▸ hm)).trans (henc.byteAt m hm)⟩
  obtain ⟨v, hv, hcomp, hout, hbytes⟩ :=
    execDecode_completes hu (by omega) (hop.symm ▸ hfit) hread (decodeChars_encodeBytes bs)
  rw [hlen, BitVec.ofNat_toNat, BitVec.setWidth_eq] at hout
  refine ⟨v, hv, hcomp, hout, fun m hm => ?_⟩
  rw [readInput_eq hn hb, Option.some_inj] at hbs
  rw [hbytes m (hout.symm ▸ hm), ← hbs, List.getElem?_map, List.getElem?_range hm, Option.map_some]

end Sys2Proof.Machine
end

section
/-! PROOFS. `DECODE` ending by ending: the length check (42_decode.md R151), what a failure leaves (R160), and the frame (R150, R162). -/

namespace Sys2Proof.Machine

/-! `DECODE`, ending by ending -/

section Endings
variable {s t u : State}

/-- Under the invariant, a `DECODE` that answers a state found the length or the projection wanting, or it grew and then discarded its
output area, or it wrote the unpacking of the input it was given. -/
theorem execDecode_next (hi : s.Inv) (h : execDecode s = .next t) :
    t = s.failCodec .invalidLength ∨ t = s.failCodec .outOfMemory ∨
      ∃ u cs, s.grow (projDec s.operand) = some u ∧ s.readInput = some cs ∧
        (t = (u.setMem (u.mem.clear u.outBase (decodeReach u.operand))).failCodec .invalidCharacter ∨
          ∃ out, decodeChars s.dt cs = some out ∧ t = u.succeedCodec out) := by
  rcases execDecode_cases s with ⟨-, e⟩ | ⟨-, -, e⟩ | ⟨u, -, hu, ⟨-, e⟩ | ⟨cs, hcs, ⟨-, e⟩ | ⟨out, hout, e⟩⟩⟩ <;>
    cases e.symm.trans h
  · exact Or.inl rfl
  · exact Or.inr (Or.inl rfl)
  · exact Or.inr (Or.inr ⟨u, cs, hu, (grow_readInput hi hu).symm.trans hcs, Or.inl rfl⟩)
  · rw [(grow_tables hu).2] at hout
    exact Or.inr (Or.inr ⟨u, cs, hu, (grow_readInput hi hu).symm.trans hcs, Or.inr ⟨out, hout, rfl⟩⟩)

/-- Discarding the output area makes it `UNWRITTEN` and changes no other byte (42_decode.md R160). -/
theorem clear_failCodec_byteAt (x n : Nat) (code : ErrCode) (a : Nat) :
    ((u.setMem (u.mem.clear x n)).failCodec code).byteAt a = if x ≤ a ∧ a < x + n then none else u.byteAt a :=
  read_clear ..

/-- The output base of a `DECODE` that grew is a 32-bit value: the projection is twice the input, so the output area has its first
location inside the region unless the input is empty (43_growth.md R192, R197). -/
theorem decode_outBase_lt (hi : s.Inv) (hg : s.grow (projDec s.operand) = some u) : s.outBase < 2 ^ 32 := by
  have htwice : u.outBase + s.operand ≤ u.capacity := grow_outBase_le hi hg (by unfold projDec; omega)
  have hcap : u.capacity ≤ 2 ^ 32 := capacity_le (grow_inv hi hg)
  have hin : s.inBase < 2 ^ 32 := BitVec.isLt _
  rw [grow_outBase hg] at htwice
  unfold State.outBase at htwice ⊢
  omega

end Endings

/-- Settles O35: the length is checked before anything else (42_decode.md R151). -/
theorem invalidLengthIsCheckedFirst : Obligations.InvalidLengthIsCheckedFirst := by
  intro s n hp h8
  exact execDecode_invalidLength (by rwa [operand_of_busy s hp])

/-- Settles O39: of the three failures only `InvalidCharacter` has touched the region, and what it touched it clears. -/
theorem failedDecodeReturnsNothing : Obligations.FailedDecodeReturnsNothing := by
  intro s t n hi hp h hne
  rcases execDecode_next hi h with rfl | rfl | ⟨u, cs, hu, -, rfl | ⟨out, -, rfl⟩⟩
  · exact ⟨rfl, rfl, nofun, fun _ _ => rfl⟩
  · exact ⟨rfl, rfl, nofun, fun _ _ => rfl⟩
  · have hbase : u.outBase = s.params.reservedSize.toNat + n.toNat := by
      rw [grow_outBase hu, State.outBase, State.inBase, operand_of_busy s hp]
    have hreach : decodeReach u.operand = 5 * (n.toNat / 8) := by rw [grow_operand hu, operand_of_busy s hp, decodeReach]
    refine ⟨rfl, rfl, fun _ => ⟨fun a h1 h2 => ?_, fun a ha => ?_⟩, fun hc => absurd rfl hc⟩ <;>
      rw [clear_failCodec_byteAt, hbase, hreach]
    · rw [if_pos ⟨h1, h2⟩]
    · rw [if_neg (by omega)]
      exact grow_read_inv hi hu a
  · exact absurd rfl hne

/-- Settles O40: an early failure writes the result alone; the other two endings stand on the growth step's frame, and a success adds
the run of its output. -/
theorem decodeChangesOnlyItsOutput : Obligations.DecodeChangesOnlyItsOutput := by
  intro s t n hi hp h
  have hn : s.operand = n.toNat := operand_of_busy s hp
  refine ⟨exec_sameButCodec (i := .decode) rfl nofun h, ?_⟩
  rcases execDecode_next hi h with rfl | rfl | ⟨u, cs, hu, hcs, rfl | ⟨out, hout, rfl⟩⟩
  · exact ⟨rfl, rfl, nofun, rfl, nofun⟩
  · exact ⟨rfl, rfl, nofun, rfl, nofun⟩
  · refine ⟨rfl, rfl, nofun, ?_, nofun⟩
    rw [failCodec_err, if_pos (Or.inr rfl), failCodec_pages, setMem_pages, grow_pages hu, hn]
  · have hlen : out.length ≤ 5 * (n.toNat / 8) := by
      rw [← hn, ← readBytes_length hcs]; exact decodeChars_length_le hout
    have hword : out.length < 2 ^ 32 := by have := n.isLt; omega
    have houtLen : (u.succeedCodec out).outLen.toNat = out.length := by
      rw [succeedCodec_outLen, BitVec.toNat_ofNat, Nat.mod_eq_of_lt hword]
    refine ⟨rfl, rfl, nofun, ?_, fun _ => ⟨?_, houtLen.symm ▸ hlen, fun a ha => ?_⟩⟩
    · rw [succeedCodec_err, if_pos (Or.inl rfl), succeedCodec_pages, grow_pages hu, hn]
    · rw [succeedCodec_outPtr, BitVec.toNat_ofNat, grow_outBase hu, Nat.mod_eq_of_lt (decode_outBase_lt hi hu)]
    · rw [houtLen, ← grow_outBase hu] at ha
      rw [succeedCodec_byteAt_outside ha]
      exact grow_read_inv hi hu a

end Sys2Proof.Machine
end

section
/-! PROOFS. `DECODE` on a well-formed input: the bytes it unpacks (42_decode.md R156, R158), and that it accepts no other input (R153 to
R155). -/

namespace Sys2Proof.Machine

/-! The shape of a well-formed input -/

section Shape
variable {ds : List Byte} {c : Nat → Byte} {n p : Nat}

theorem legalRun_iff (p : Nat) : legalRun p = true ↔ p = 0 ∨ p = 1 ∨ p = 3 ∨ p = 4 ∨ p = 6 := by
  simp [legalRun, or_assoc]

theorem legalRun_le (h : legalRun p = true) : p ≤ 6 := by
  rw [legalRun_iff] at h; omega

/-- The bytes of `8G - p` characters are `5G - LOSS(p)` (42_decode.md R158). -/
theorem bytesOf_sub (h8 : n % 8 = 0) (hp : legalRun p = true) (hle : p ≤ n) : bytesOf (n - p) = 5 * (n / 8) -
    (if p = 0 then 0 else if p = 1 then 1 else if p = 3 then 2 else if p = 4 then 3 else 4) := by
  have hlegal := (legalRun_iff p).1 hp
  unfold bytesOf
  split_ifs <;> omega

/-- `p` characters from position `k` on are all `'='`. -/
theorem map_range_shift_eq_replicate (k : Nat) : ((List.range p).map (k + ·)).map c = List.replicate p padChar ↔
    ∀ m, k ≤ m → m < k + p → c m = padChar := by
  rw [List.eq_replicate_iff, List.map_map, List.forall_mem_map, List.length_map, List.length_range, eq_self, true_and]
  constructor
  · intro h m hk hm
    rw [← Nat.add_sub_of_le hk]
    exact h _ (List.mem_range.2 (by omega))
  · exact fun h i hi => h _ (Nat.le_add_right ..) (Nat.add_lt_add_left (List.mem_range.1 hi) k)

/-- An input ends in `p` of `'='` when each of its last `p` characters is `'='`. -/
theorem map_range_eq_append_replicate : (List.range n).map c = ds ++ List.replicate p padChar ↔
    p ≤ n ∧ ds = (List.range (n - p)).map c ∧ ∀ m, n - p ≤ m → m < n → c m = padChar := by
  constructor
  · intro h
    obtain rfl : n = ds.length + p := by simpa using congrArg List.length h
    rw [List.range_add, List.map_append] at h
    obtain ⟨hds, hrep⟩ := List.append_inj h (by simp)
    rw [Nat.add_sub_cancel]
    exact ⟨Nat.le_add_left .., hds.symm, (map_range_shift_eq_replicate _).1 hrep⟩
  · rintro ⟨hle, rfl, h⟩
    obtain ⟨k, rfl⟩ := Nat.exists_eq_add_of_le' hle
    rw [Nat.add_sub_cancel] at h ⊢
    rw [List.range_add, List.map_append, (map_range_shift_eq_replicate k).2 h]

/-- A run of characters ends in its trailing run of `'='` (R152). -/
theorem eq_append_padRun (cs : List Byte) : ∃ ds, cs = ds ++ List.replicate (padRun cs) padChar := by
  have hrun : cs.reverse.takeWhile (fun c => c == padChar) = List.replicate (padRun cs) padChar :=
    List.eq_replicate_iff.2 ⟨rfl, fun c hc => by simpa using List.mem_takeWhile_imp hc⟩
  refine ⟨(cs.reverse.dropWhile (fun c => c == padChar)).reverse, ?_⟩
  rw [← List.reverse_replicate, ← hrun, ← List.reverse_append, List.takeWhile_append_dropWhile, List.reverse_reverse]

end Shape

/-! What is unpacked -/

/-- `out` is the first `b` bytes of the stream of the 5-bit values `q` (42_decode.md R156). -/
structure Unpacked (q : Nat → Quint) (b : Nat) (out : List Byte) : Prop where
  length : out.length = b
  bit : ∀ m v, out[m]? = some v → ∀ j, j < 8 → v.getLsbD (7 - j) = quintStreamBit q (8 * m + j)

section Unpacking
variable {dt : DecTable} {q : Nat → Quint} {b d p g : Nat} {cs ds out rest : List Byte} {last : Bool}

/-- Unpacking goes on behind a full group: eight values fill five bytes. -/
theorem Unpacked.append (h : Unpacked q 5 out) (h' : Unpacked (fun i => q (8 + i)) b rest) : Unpacked q (5 + b) (out ++ rest) where
  length := by rw [List.length_append, h.length, h'.length]
  bit m v hm j hj := by
    rw [List.getElem?_append, h.length] at hm
    split_ifs at hm with hlt
    · exact h.bit m v hm j hj
    · have hdiv : (8 * m + j) / 5 = 8 + (8 * (m - 5) + j) / 5 := by omega
      have hmod : (8 * m + j) % 5 = (8 * (m - 5) + j) % 5 := by omega
      rw [h'.bit _ v hm j hj, quintStreamBit, quintStreamBit, hdiv, hmod]

/-- A group of `d` values emits the bytes their bits fill (R156). -/
theorem unpacked_emitBytes (hd : d ≤ 8) :
    Unpacked q (bytesOf d) (emitBytes (groupOfQuints ((List.range d).map q)) (bytesOf d)) where
  length := emitBytes_length ..
  bit m v hm j hj := by
    have hlt : m < bytesOf d := by
      rw [← emitBytes_length (groupOfQuints ((List.range d).map q)) (bytesOf d)]
      exact (List.getElem?_eq_some_iff.1 hm).1
    rw [emitBytes_get _ _ _ hlt, Option.some_inj] at hm
    unfold bytesOf at hlt
    have hk : (8 * m + j) / 5 < d := by omega
    rw [← hm, emit_bit _ _ _ (by omega) hj, groupOfQuints_bit _ _ (by omega), List.getD_eq_getElem?_getD, List.getElem?_map,
      List.getElem?_range hk, Option.map_some, Option.getD_some, quintStreamBit]

/-- Characters with a value are not `'='`, so a group's padding is its trailing run, and the group is accepted when it may be padded
(R152 to R154). -/
theorem unpackGroup_wellFormed (hpad : decLookup dt padChar = none) (hp : legalRun p = true) (hlast : p ≠ 0 → last = true)
    (hlen : ds.length + p = 8) (hq : ∀ i (h : i < ds.length), decLookup dt ds[i] = some (q i)) :
    ∃ out, unpackGroup dt last (ds ++ List.replicate p padChar) = some out ∧ Unpacked q (bytesOf ds.length) out := by
  have hne : ∀ c ∈ ds, c ≠ padChar := by
    rintro c hc rfl
    obtain ⟨i, hi, e⟩ := List.getElem_of_mem hc
    have := hq i hi
    rw [e, hpad] at this; cases this
  have hrun : padRun (ds ++ List.replicate p padChar) = p := padRun_append_replicate hne p
  have hdata : lookupAll dt ds = some ((List.range ds.length).map q) := by
    rw [lookupAll_eq_some]
    exact ⟨by simp, fun i hi => by rw [hq i hi, List.getElem?_map, List.getElem?_range hi, Option.map_some]⟩
  have hsub : 8 - p = ds.length := by omega
  have hmay : ¬ (p ≠ 0 ∧ last = false) := fun ⟨h0, hf⟩ => by rw [hlast h0] at hf; cases hf
  refine ⟨_, ?_, unpacked_emitBytes (by omega)⟩
  simp only [unpackGroup, hrun, hp, Bool.not_true, Bool.false_eq_true, if_false, if_neg hmay, hsub, List.take_left, hdata]

/-- Groups of characters with a value, the last with a legal run of `'='`, unpack into the stream of their values. -/
theorem unpackGroups_wellFormed (hpad : decLookup dt padChar = none) (hp : legalRun p = true) (hlen : ds.length + p = 8 * g)
    (hq : ∀ i (h : i < ds.length), decLookup dt ds[i] = some (q i)) :
    ∃ out, unpackGroups dt g (ds ++ List.replicate p padChar) = some out ∧ Unpacked q (bytesOf ds.length) out := by
  have hp6 := legalRun_le hp
  induction g generalizing ds q with
  | zero =>
    have hd : ds.length = 0 := by omega
    refine ⟨[], rfl, by rw [hd]; rfl, nofun⟩
  | succ g ih =>
    rcases Nat.eq_zero_or_pos g with rfl | hg
    · obtain ⟨out, hout, hun⟩ := unpackGroup_wellFormed (last := true) hpad hp (fun _ => rfl) hlen hq
      refine ⟨out, unpackGroups_succ_eq_some.2 ⟨out, [], ?_, rfl, (List.append_nil out).symm⟩, hun⟩
      rwa [List.take_of_length_le (by simp; omega)]
    · have htake : (ds.take 8).length = 8 := by rw [List.length_take]; omega
      have hdrop : (ds.drop 8).length + p = 8 * g := by rw [List.length_drop]; omega
      obtain ⟨head, hhead, hunhead⟩ := unpackGroup_wellFormed (last := g == 0) (p := 0) (ds := ds.take 8) hpad rfl (absurd rfl) htake
        fun i hi => by rw [List.getElem_take]; exact hq i _
      obtain ⟨out, hout, hun⟩ := ih hdrop (q := fun i => q (8 + i)) fun i hi => by rw [List.getElem_drop]; exact hq _ _
      rw [List.replicate_zero, List.append_nil] at hhead
      rw [htake] at hunhead
      have hbytes : bytesOf ds.length = 5 + bytesOf (ds.drop 8).length := by
        rw [List.length_drop, bytesOf, bytesOf]; omega
      refine ⟨head ++ out, unpackGroups_succ_eq_some.2 ⟨head, out, ?_, ?_, rfl⟩, hbytes ▸ hunhead.append hun⟩
      · rwa [List.take_append_of_le_length (by omega)]
      · rwa [List.drop_append_of_le_length (by omega)]

/-- A group that is accepted is characters with a value, then its trailing run of `'='`, which is legal (R152 to R154). -/
theorem wellFormed_of_unpackGroup (h : unpackGroup dt last cs = some out) (hlen : cs.length = 8) :
    ∃ ds p, legalRun p = true ∧ (p ≠ 0 → last = true) ∧ cs = ds ++ List.replicate p padChar ∧
      ∀ c ∈ ds, decLookup dt c ≠ none := by
  obtain ⟨hlegal, hlast, vs, hvs, -⟩ := unpackGroup_eq_some h
  obtain ⟨ds, hcs⟩ := eq_append_padRun cs
  have hdata : cs.take (8 - padRun cs) = ds := by
    rw [congrArg List.length hcs, List.length_append, List.length_replicate] at hlen
    conv_lhs => arg 2; rw [hcs]
    exact List.take_left' (by omega)
  refine ⟨ds, _, hlegal, hlast, hcs, fun c hc hnone => ?_⟩
  have hfail : lookupAll dt ds = none := (lookupAll_eq_none ..).2 ⟨c, hc, hnone⟩
  rw [hdata, hfail] at hvs
  cases hvs

/-- Groups that are accepted are characters with a value, then one legal run of `'='`: only the last group may be padded (R155). -/
theorem wellFormed_of_unpackGroups (h : unpackGroups dt g cs = some out) (hlen : cs.length = 8 * g) :
    ∃ ds p, legalRun p = true ∧ cs = ds ++ List.replicate p padChar ∧ ∀ c ∈ ds, decLookup dt c ≠ none := by
  induction g generalizing cs out with
  | zero => exact ⟨[], 0, rfl, List.eq_nil_of_length_eq_zero hlen, nofun⟩
  | succ g ih =>
    obtain ⟨head, tail, hhead, htail, -⟩ := unpackGroups_succ_eq_some.1 h
    obtain ⟨ds, p, hlegal, hlast, hcs, hds⟩ := wellFormed_of_unpackGroup hhead (by rw [List.length_take]; omega)
    rcases Nat.eq_zero_or_pos p with rfl | hp
    · obtain ⟨ds', p', hlegal', hcs', hds'⟩ := ih htail (by rw [List.length_drop]; omega)
      refine ⟨ds ++ ds', p', hlegal', ?_, List.forall_mem_append.2 ⟨hds, hds'⟩⟩
      rw [List.append_assoc, ← hcs', ← List.append_nil ds, ← List.replicate_zero (a := padChar), ← hcs, List.take_append_drop]
    · have hg : g = 0 := beq_iff_eq.1 (hlast (by omega))
      refine ⟨ds, p, hlegal, ?_, hds⟩
      rwa [List.take_of_length_le (by omega)] at hcs

/-- The unpacking of characters with a value and a legal run of `'='` (R156, R158). -/
theorem decodeChars_wellFormed (hpad : decLookup dt padChar = none) (hp : legalRun p = true) (h8 : (ds.length + p) % 8 = 0)
    (hq : ∀ i (h : i < ds.length), decLookup dt ds[i] = some (q i)) :
    ∃ out, decodeChars dt (ds ++ List.replicate p padChar) = some out ∧ Unpacked q (bytesOf ds.length) out := by
  rw [decodeChars, List.length_append, List.length_replicate]
  exact unpackGroups_wellFormed hpad hp (by omega) hq

end Unpacking

/-- Settles O36: the input is unpacked group by group into the stream of its values, which is read back at `OUT_PTR`. -/
theorem decodeWritesTheUnpackedBytes : Obligations.DecodeWritesTheUnpackedBytes := by
  intro s n p c q hi hp h8 hfit hin hrun hle hq hpad
  have hn : s.operand = n.toNat := operand_of_busy s hp
  have hlegal := (legalRun_iff p).2 hrun
  have hlen : ((List.range (n.toNat - p)).map c).length = n.toNat - p := by rw [List.length_map, List.length_range]
  have hread := readInput_eq hn hin
  rw [map_range_eq_append_replicate.2 ⟨hle, rfl, hpad⟩] at hread
  have hvalues : ∀ i (h : i < ((List.range (n.toNat - p)).map c).length),
      decLookup (buildDec buildEnc) ((List.range (n.toNat - p)).map c)[i] = some (q i) := fun i h => by
    rw [List.getElem_map, List.getElem_range, ← hi.dt_built, hq i (hlen ▸ h)]
  obtain ⟨out, hout, hun⟩ := decodeChars_wellFormed decLookup_padding hlegal (by omega) hvalues
  obtain ⟨t, ht, hcomp, houtLen, hbytes⟩ := execDecode_completes hi (hn.symm ▸ h8) (hn.symm ▸ hfit) hread hout
  obtain ⟨-, -, -, -, -, hframe⟩ := decodeChangesOnlyItsOutput s t n hi hp ht
  obtain ⟨hptr, -, -⟩ := hframe hcomp.err
  have hcount : t.outLen.toNat = bytesOf (n.toNat - p) := by
    rw [houtLen, BitVec.toNat_ofNat, hun.length, hlen, bytesOf, Nat.mod_eq_of_lt (by have := n.isLt; omega)]
  refine ⟨t, ht, hcomp, by rw [hptr, State.outBase, State.inBase, hn], hcount.trans (bytesOf_sub h8 hlegal hle),
    fun m v hm hv => ?_⟩
  have hm' : m < out.length := by rwa [hun.length, hlen, ← hcount]
  rw [hbytes m hm, List.getElem?_eq_getElem hm']
  exact congrArg some (byte_ext fun j hj => (hun.bit m _ (List.getElem?_eq_getElem hm') j hj).trans (hv j hj).symm)

/-- Settles O38: a well-formed input succeeds with the values its characters map to, and the groups of an input that succeeds add up
to the form. -/
theorem decodeAcceptsExactlyWellFormedInput : Obligations.DecodeAcceptsExactlyWellFormedInput := by
  intro s n c hi hp h8 hfit hin
  have hn : s.operand = n.toNat := operand_of_busy s hp
  constructor
  · rintro ⟨t, ht, hcomp⟩
    rcases execDecode_next hi ht with rfl | rfl | ⟨u, cs, -, hcs, rfl | ⟨out, hout, rfl⟩⟩
    · cases hcomp.err
    · cases hcomp.err
    · cases hcomp.err
    · rw [readInput_eq hn hin, Option.some_inj] at hcs
      have hlen : cs.length = n.toNat := by rw [← hcs, List.length_map, List.length_range]
      obtain ⟨ds, p, hlegal, hsplit, hds⟩ := wellFormed_of_unpackGroups hout (by omega)
      obtain ⟨hle, rfl, hpad⟩ := map_range_eq_append_replicate.1 (hcs.trans hsplit)
      exact ⟨p, (legalRun_iff p).1 hlegal, hle, fun m hm => hds _ (List.mem_map_of_mem (List.mem_range.2 hm)), hpad⟩
  · rintro ⟨p, hrun, hle, hdata, hpad⟩
    have hvalues : ∀ m, m < n.toNat - p → decLookup s.dt (c m) = some ((decLookup s.dt (c m)).getD 0#5) := fun m hm =>
      (Option.getD_of_ne_none (hdata m hm) _).symm
    obtain ⟨t, ht, hcomp, -⟩ := decodeWritesTheUnpackedBytes s n p c _ hi hp h8 hfit hin hrun hle hvalues hpad
    exact ⟨t, ht, hcomp⟩

end Sys2Proof.Machine
end

section
/-! PROOFS. The growth step (43_growth.md R190 to R198): what its two commands answer, that `OutOfMemory` touches nothing but the result,
and that a step that succeeds has made room for a codec's input and output. -/

namespace Sys2Proof.Machine

/-! The projections (R191, R192) -/

/-- Input and output pass three times the input at six lengths: at `5g + r` bytes, `1 ≤ r ≤ 5`, they do exactly when `g + r < 4`. -/
theorem triple_lt_iff (n : Nat) :
    3 * n < n + 8 * ((n + 4) / 5) ↔ n = 1 ∨ n = 2 ∨ n = 3 ∨ n = 6 ∨ n = 7 ∨ n = 11 := by
  omega

/-- Settles O26: the projection is not `3n` exactly where `3n` is the smaller of the two. -/
theorem encodeProjectionExceedsTripleSixTimes : Obligations.EncodeProjectionExceedsTripleSixTimes := by
  intro n
  refine ⟨rfl, ?_⟩
  rw [← triple_lt_iff, ← not_le]
  exact not_congr max_eq_left_iff

/-- Settles O29: the projection fits behind the header, and it covers input and output. -/
theorem growthStepSuffices : Obligations.GrowthStepSuffices := by
  intro s t n hvalid
  have hpos := params_pos hvalid
  refine ⟨fun h => ?_, fun h => ?_⟩
  · calc s.params.reservedSize.toNat + n + encLength n
        ≤ s.params.reservedSize.toNat + projEnc n := by have := projEnc_covers n; omega
      _ ≤ t.capacity := grow_suffices hpos h
  · calc s.params.reservedSize.toNat + n + 5 * (n / 8)
        ≤ s.params.reservedSize.toNat + projDec n := by have := projDec_covers n; omega
      _ ≤ t.capacity := grow_suffices hpos h

/-! The growth step and its two commands, ending by ending (R190, R193, R194) -/

section Endings
variable {s t : State} {op : Command} {n : Word} {proj : Nat}

theorem grow_of_needed_le (h : s.pagesNeeded proj ≤ s.pages.toNat) : s.grow proj = some s := by
  rw [State.grow, if_pos h]

theorem grow_of_lt_needed (h : s.pages.toNat < s.pagesNeeded proj) (hmax : s.pagesNeeded proj ≤ s.params.maxPages.toNat) :
    s.grow proj = some (s.growTo (s.pagesNeeded proj)) := by
  rw [State.grow, if_neg (Nat.not_le_of_lt h), if_neg (Nat.not_lt_of_le hmax)]

theorem growAndComplete_success (hg : s.grow proj = some t) : growAndComplete s proj = .next (t.complete .none) := by
  rw [growAndComplete, hg]

theorem growAndComplete_outOfMemory (hg : s.grow proj = none) : growAndComplete s proj = .next (s.complete .outOfMemory) := by
  rw [growAndComplete, hg]

/-- Both commands are the growth step alone, each with its projection. -/
theorem exec_prep (hp : s.phase = .busy op n)
    (hop : (op = .prepEncode ∧ proj = projEnc n.toNat) ∨ (op = .prepDecode ∧ proj = projDec n.toNat)) :
    exec op.instr s = growAndComplete s proj := by
  have hn : s.operand = n.toNat := operand_of_busy s hp
  rcases hop with ⟨rfl, rfl⟩ | ⟨rfl, rfl⟩ <;> rw [← hn] <;> rfl

/-- A growth step that raises `OutOfMemory` ends its command: the two that only grow complete, the codec returns no result
(R196, 60_exceptions.md R237). -/
theorem exec_outOfMemory (hp : s.phase = .busy op n) (hg : s.grow proj = none)
    (hop : ((op = .prepEncode ∨ op = .encode) ∧ proj = projEnc n.toNat) ∨ (op = .prepDecode ∧ proj = projDec n.toNat) ∨
      (op = .decode ∧ n.toNat % 8 = 0 ∧ proj = projDec n.toNat)) :
    ((op = .prepEncode ∨ op = .prepDecode) ∧ exec op.instr s = .next (s.complete .outOfMemory)) ∨
      ((op = .encode ∨ op = .decode) ∧ exec op.instr s = .next (s.failCodec .outOfMemory)) := by
  have hn : s.operand = n.toNat := operand_of_busy s hp
  rw [← hn] at hop
  rcases hop with ⟨rfl | rfl, rfl⟩ | ⟨rfl, rfl⟩ | ⟨rfl, h8, rfl⟩
  · exact Or.inl ⟨Or.inl rfl, growAndComplete_outOfMemory hg⟩
  · exact Or.inr ⟨Or.inl rfl, execEncode_outOfMemory hg⟩
  · exact Or.inl ⟨Or.inr rfl, growAndComplete_outOfMemory hg⟩
  · exact Or.inr ⟨Or.inr rfl, execDecode_outOfMemory h8 hg⟩

end Endings

/-- Settles O25: the three branches of the growth step, with the laws of its `PAGES` and of its region in the last. -/
theorem prepCommandsRunTheGrowthStep : Obligations.PrepCommandsRunTheGrowthStep := by
  refine ⟨Laws.RoundTrip.prepEncode rfl, Laws.RoundTrip.prepDecode rfl, ?_⟩
  intro s op n proj need hp hop hneed
  obtain rfl : need = s.pagesNeeded proj := hneed
  rw [exec_prep hp hop]
  refine ⟨fun h => ?_, fun h hmax => ?_, fun h hmax => ?_⟩
  · exact growAndComplete_success (grow_of_needed_le h)
  · exact growAndComplete_outOfMemory ((grow_eq_none s proj).2 ⟨h, hmax⟩)
  · have hg := grow_of_lt_needed h hmax
    refine ⟨_, growAndComplete_success hg, (grow_pages hg).trans (Nat.max_eq_right h.le), rfl, fun a h1 h2 => ?_, fun a ha => ?_⟩
    · exact (grow_read hg a).trans (if_pos ⟨h1, h2⟩)
    · rw [complete_capacity] at ha
      exact (grow_read hg a).trans (if_neg (by omega))

/-- Settles O28: `OutOfMemory` completes the state it found, and the codec commands return no result besides. -/
theorem outOfMemoryChangesOnlyTheResult : Obligations.OutOfMemoryChangesOnlyTheResult := by
  intro s op n proj hp hop hle hfit
  rcases exec_outOfMemory hp (notfits_grow hle hfit) hop with ⟨hprep, e⟩ | ⟨hcodec, e⟩
  · refine ⟨_, e, ⟨rfl, rfl, rfl⟩, rfl, fun _ => rfl, ⟨rfl, rfl, rfl, rfl, rfl, rfl, rfl, rfl, rfl⟩, fun _ => ⟨rfl, rfl⟩, ?_⟩
    rcases hprep with rfl | rfl <;> rintro (h | h) <;> cases h
  · refine ⟨_, e, ⟨rfl, rfl, rfl⟩, rfl, fun _ => rfl, ⟨rfl, rfl, rfl, rfl, rfl, rfl, rfl, rfl, rfl⟩, ?_, fun _ => ⟨rfl, rfl⟩⟩
    rcases hcodec with rfl | rfl <;> rintro (h | h) <;> cases h

end Sys2Proof.Machine
end

section
/-! PROOFS. The host's accesses: reads and writes of a register by its offset (44_host_access.md R210, R211, R216, R217), and reads of
the byte region (R212). -/

namespace Sys2Proof.Machine

section Access
variable {s : State} {r : Reg} {a d : Word} {b : Byte}

/-! Register offsets (30_encoding.md R75) -/

theorem decodeReg_regOffset (r : Reg) : decodeReg (regOffset r) = some r := (decodeReg_eq_some _ r).2 rfl

/-- The nine offsets are the multiples of 4 below 36 (10_state.md R24). -/
theorem regOffset_toNat (r : Reg) : ∃ k, k < 9 ∧ (regOffset r).toNat = 4 * k := by
  cases r <;> decide

theorem decodeReg_reserved (h : ∀ k, k < 9 → a.toNat ≠ 4 * k) : decodeReg a = none := by
  refine Option.eq_none_iff_forall_ne_some.2 fun r hr => ?_
  obtain ⟨k, hk, hreg⟩ := regOffset_toNat r
  obtain rfl := (decodeReg_eq_some a r).1 hr
  exact h k hk hreg

/-! `REG_RD` (R210) -/

theorem exec_regRd_reserved (h : ∀ k, k < 9 → a.toNat ≠ 4 * k) : exec (.regRd a) s = .fault .reservedRegister := by
  show execRegRd a s = _
  rw [execRegRd, decodeReg_reserved h]

theorem exec_regRd_regOffset (r : Reg) (s : State) : exec (.regRd (regOffset r)) s =
    .next (if s.busy && unspecifiedWhileBusy r then s.respondFreeWord else s.respond (s.regValue r)) := by
  show execRegRd (regOffset r) s = _
  rw [execRegRd, decodeReg_regOffset]

theorem exec_regRd_idle (r : Reg) (hp : s.phase = .idle) : exec (.regRd (regOffset r)) s = .next (s.respond (s.regValue r)) := by
  rw [exec_regRd_regOffset, (busy_eq_false_iff s).2 hp, Bool.false_and, if_neg Bool.false_ne_true]

theorem exec_regRd_unspecified (hp : s.phase ≠ .idle) (hr : unspecifiedWhileBusy r = true) :
    exec (.regRd (regOffset r)) s = .next s.respondFreeWord := by
  rw [exec_regRd_regOffset, busy_of_not_idle hp, hr, Bool.true_and, if_pos rfl]

/-! `REG_WR` (R211) -/

theorem exec_regWr_reserved (h : ∀ k, k < 9 → a.toNat ≠ 4 * k) : exec (.regWr a d) s = .fault .reservedRegister := by
  show execRegWr a d s = _
  rw [execRegWr, decodeReg_reserved h]

theorem exec_regWr_cmd (s : State) (d : Word) : exec (.regWr (regOffset .cmd) d) s =
    if s.busy then .fault .commandWhileBusy else .next (s.acceptCommand (decodeCommand d)) := rfl

theorem exec_regWr_len (s : State) (d : Word) : exec (.regWr (regOffset .len) d) s =
    if s.busy then .fault .lenWriteWhileBusy else .next (s.setLen d) := rfl

/-! `MEM_RD`, outcome by outcome (R212) -/

theorem exec_memRd_outOfBounds (ha : s.capacity ≤ a.toNat) : exec (.memRd a) s = .fault .outOfBounds :=
  if_pos ha

/-- While `BUSY`, in the header and at an `UNWRITTEN` location the response is a free byte. -/
theorem exec_memRd_free (ha : a.toNat < s.capacity)
    (h : s.phase ≠ .idle ∨ a.toNat < s.inBase ∨ s.byteAt a.toNat = none) : exec (.memRd a) s = .next s.respondFreeByte := by
  show execMemRd a s = _
  rw [execMemRd, if_neg (Nat.not_le_of_lt ha)]
  rcases h with hp | hb | hr
  · rw [if_pos (busy_of_not_idle hp)]
  · rw [if_pos hb, ite_self]
  · rw [show s.mem.read a.toNat = none from hr, ite_self, ite_self]

theorem exec_memRd_written (ha : a.toNat < s.capacity) (hp : s.phase = .idle) (hb : s.inBase ≤ a.toNat)
    (hr : s.byteAt a.toNat = some b) : exec (.memRd a) s = .next (s.respond (b.setWidth 32)) := by
  show execMemRd a s = _
  rw [execMemRd, if_neg (Nat.not_le_of_lt ha), (busy_eq_false_iff s).2 hp, if_neg Bool.false_ne_true,
    if_neg (Nat.not_lt_of_le hb), show s.mem.read a.toNat = some b from hr]

end Access

/-- Settles O19: the store leaves the bounds and the phase as they were, so the read finds the byte stored. -/
theorem storedByteReadsBack : Obligations.StoredByteReadsBack := by
  intro s a d hp hb ha
  have hread : (s.setMem (s.mem.write a.toNat (d.extractLsb' 0 8))).byteAt a.toNat = some (d.extractLsb' 0 8) :=
    read_write_same s.mem a.toNat _
  have hzero : (d.extractLsb' 0 8).setWidth 32 = 0#24 ++ d.extractLsb' 0 8 := BitVec.setWidth_eq_append (by decide)
  exact ⟨_, _, exec_memWr_store ha hp hb, exec_memRd_written ha hp hb hread, hzero, rfl, rfl⟩

/-- Settles O12: each register by its offset, with `STATUS` under the invariant. -/
theorem registerReadsRespond : Obligations.RegisterReadsRespond := by
  refine ⟨fun _ _ => rfl, fun s => ⟨exec_regRd_specified (r := .cmd) s rfl, exec_regRd_specified (r := .len) s rfl,
    exec_regRd_status s, exec_regRd_specified (r := .inPtr) s rfl, exec_regRd_specified (r := .pageSize) s rfl,
    exec_regRd_specified (r := .maxPages) s rfl, fun hp => ?_, fun hp => ?_, fun hi hp => ?_, fun _ => exec_regRd_reserved⟩⟩
  · exact ⟨exec_regRd_idle .outPtr hp, exec_regRd_idle .outLen hp, exec_regRd_idle .pages hp⟩
  · rintro a (rfl | rfl | rfl)
    · exact exec_regRd_unspecified (r := .outPtr) hp rfl
    · exact exec_regRd_unspecified (r := .outLen) hp rfl
    · exact exec_regRd_unspecified (r := .pages) hp rfl
  · rw [exec_regRd_status, statusWord_running hi hp]
    rfl

/-- Settles O16: only `CMD` and `LEN` have an arm that does something. -/
theorem readOnlyRegistersIgnoreWrites : Obligations.ReadOnlyRegistersIgnoreWrites := by
  intro s r d hcmd hlen
  cases r with
  | cmd => exact absurd rfl hcmd
  | len => exact absurd rfl hlen
  | _ => rfl

/-- Settles O15: `CMD` and `LEN` by the phase, and the seven others by `readOnlyRegistersIgnoreWrites`. -/
theorem registerWritesTakeEffect : Obligations.RegisterWritesTakeEffect := by
  refine ⟨fun _ _ => rfl, fun s d => ⟨fun hp => ?_, fun hp => ?_, ?_, fun _ => exec_regWr_reserved⟩⟩
  · have hb : ¬s.busy = true := by simp [(busy_eq_false_iff s).2 hp]
    exact ⟨(exec_regWr_cmd s d).trans (if_neg hb), (exec_regWr_len s d).trans (if_neg hb)⟩
  · have hb := busy_of_not_idle hp
    exact ⟨(exec_regWr_cmd s d).trans (if_pos hb), (exec_regWr_len s d).trans (if_pos hb)⟩
  · have ignored : ∀ r : Reg, r ≠ .cmd → r ≠ .len → exec (.regWr (regOffset r) d) s = .next s :=
      fun r => readOnlyRegistersIgnoreWrites s r d
    rintro a (rfl | rfl | rfl | rfl | rfl | rfl | rfl)
    exacts [ignored .status nofun nofun, ignored .inPtr nofun nofun, ignored .outPtr nofun nofun,
      ignored .outLen nofun nofun, ignored .pages nofun nofun, ignored .pageSize nofun nofun, ignored .maxPages nofun nofun]

/-- Settles O17: each outcome of `MEM_RD` by its own lemma. -/
theorem regionReadsRespond : Obligations.RegionReadsRespond :=
  ⟨fun _ _ => rfl, fun _ _ => ⟨exec_memRd_outOfBounds, fun ha =>
    ⟨exec_memRd_free ha, fun _ hp hb hr => exec_memRd_written ha hp hb hr⟩⟩⟩

end Sys2Proof.Machine
end

section
/-! PROOFS. What a command reports: the completion of a reserved word (60_exceptions.md R234), the first cause in the order of R236, and
the groups `DECODE` rejects (R232). -/

namespace Sys2Proof.Machine

/-- Settles O43: the decoder's law of reserved words, and the arm of `ILLEGAL`. -/
theorem illegalCompletesWithItsCode : Obligations.IllegalCompletesWithItsCode :=
  fun s w h => ⟨decodeWord_reserved h, execIllegal_eq w s⟩

section Causes
variable {s : State} {cs : List Byte}

/-! Endings by the state the command finds (R236) -/

/-- An `UNWRITTEN` input byte is still `UNWRITTEN` after the growth step, whose new locations hold nothing either. -/
theorem execDecode_unwrittenInput (hi : s.Inv) (h8 : s.operand % 8 = 0) (hfit : s.Fits (projDec s.operand))
    (hr : s.readInput = none) : execDecode s = .fault .unwrittenInput := by
  obtain ⟨t, hg⟩ := fits_grow hfit
  have hr' : t.readInput = none := (grow_readInput hi hg).trans hr
  simp only [execDecode, h8, hg, hr', ne_eq, not_true_eq_false, if_false]

theorem execEncode_unwrittenInput (hi : s.Inv) (hfit : s.Fits (projEnc s.operand)) (hr : s.readInput = none) :
    execEncode s = .fault .unwrittenInput := by
  obtain ⟨t, hg⟩ := fits_grow hfit
  have hr' : t.readInput = none := (grow_readInput hi hg).trans hr
  simp only [execEncode, hg, hr']

/-- A `DECODE` that reads its input reports nothing but `InvalidCharacter` (R232). -/
theorem execDecode_reads (hi : s.Inv) (h8 : s.operand % 8 = 0) (hfit : s.Fits (projDec s.operand))
    (hr : s.readInput = some cs) :
    ∃ t, execDecode s = .next t ∧ (Completed t .none ∨ Completed t .invalidCharacter) := by
  obtain ⟨u, hg⟩ := fits_grow hfit
  have hr' : u.readInput = some cs := (grow_readInput hi hg).trans hr
  cases hd : decodeChars u.dt cs with
  | none => exact ⟨_, execDecode_invalidCharacter h8 hg hr' hd, Or.inr ⟨rfl, rfl, rfl⟩⟩
  | some out => exact ⟨_, execDecode_success h8 hg hr' hd, Or.inl ⟨rfl, rfl, rfl⟩⟩

end Causes

/-- Settles O34: the length, the projection, the input and the characters, in the order the two commands check them. -/
theorem commandsReportTheFirstCause : Obligations.CommandsReportTheFirstCause := by
  intro s n hi
  refine ⟨fun hp h8 => ?_, fun hp h8 hfit => ?_, fun hp h8 hfit hin => ?_, fun hp h8 hfit hin => ?_, fun hp hfit => ?_,
    fun hp hfit hin => ?_, fun hp hfit hin => ?_⟩
  · exact ⟨_, invalidLengthIsCheckedFirst s n hp h8, ⟨rfl, rfl, rfl⟩, rfl, fun _ => rfl⟩
  · obtain ⟨t, ht, hcomp, hpages, hbytes, -⟩ :=
      outOfMemoryChangesOnlyTheResult s .decode n _ hp (Or.inr (Or.inr ⟨rfl, h8, rfl⟩)) hi.pages_le hfit
    exact ⟨t, ht, hcomp, hpages, hbytes⟩
  · rw [← operand_of_busy s hp] at h8 hfit
    exact execDecode_unwrittenInput hi h8 hfit (unwritten_readInput (operand_of_busy s hp) hin)
  · obtain ⟨cs, hr⟩ := written_readInput (operand_of_busy s hp) hin
    rw [← operand_of_busy s hp] at h8 hfit
    exact execDecode_reads hi h8 hfit hr
  · obtain ⟨t, ht, hcomp, hpages, hbytes, -⟩ :=
      outOfMemoryChangesOnlyTheResult s .encode n _ hp (Or.inl ⟨Or.inr rfl, rfl⟩) hi.pages_le hfit
    exact ⟨t, ht, hcomp, hpages, hbytes⟩
  · rw [← operand_of_busy s hp] at hfit
    exact execEncode_unwrittenInput hi hfit (unwritten_readInput (operand_of_busy s hp) hin)
  · obtain ⟨bs, hr⟩ := written_readInput (operand_of_busy s hp) hin
    rw [← operand_of_busy s hp] at hfit
    obtain ⟨t, ht, hcomp, -⟩ := execEncode_completes hi hfit hr
    exact ⟨t, ht, hcomp⟩

/-! Groups of a well-formed input -/

section Group
variable {dt : DecTable} {c : Nat → Byte} {n g p : Nat}

/-- A group of a well-formed input is characters with a value and a legal run of `'='`, which is empty unless the group is the last
(42_decode.md R152 to R155). -/
theorem group_of_wellFormed (h8 : n % 8 = 0) (hg : g < n / 8) (hrun : p = 0 ∨ p = 1 ∨ p = 3 ∨ p = 4 ∨ p = 6)
    (hdata : ∀ m, m < n - p → decLookup dt (c m) ≠ none) (hpad : ∀ m, n - p ≤ m → m < n → c m = padChar) :
    ∃ r, (r = 0 ∨ r = 1 ∨ r = 3 ∨ r = 4 ∨ r = 6) ∧ (r = 0 ∨ g = n / 8 - 1) ∧
      (∀ k, k < 8 - r → decLookup dt (c (8 * g + k)) ≠ none) ∧ ∀ k, 8 - r ≤ k → k < 8 → c (8 * g + k) = padChar := by
  by_cases hlast : g = n / 8 - 1
  · exact ⟨p, hrun, Or.inr hlast, fun k hk => hdata _ (by omega), fun k hk hk8 => hpad _ (by omega) (by omega)⟩
  · exact ⟨0, Or.inl rfl, Or.inl rfl, fun k hk => hdata _ (by omega), fun k hk hk8 => absurd hk8 (by omega)⟩

/-- `'='` has no value, so the trailing run of a group is the run that follows its characters with a value (R152). -/
theorem trailingRun_unique {d : Nat → Byte} {r : Nat} (hnone : decLookup dt padChar = none) (hr : r ≤ 8) (hp : p ≤ 8)
    (hdata : ∀ k, k < 8 - r → decLookup dt (d k) ≠ none) (hpad : ∀ k, 8 - r ≤ k → k < 8 → d k = padChar)
    (hrun : ∀ k, 8 - p ≤ k → k < 8 → d k = padChar) (hend : p = 8 ∨ d (7 - p) ≠ padChar) : p = r := by
  rcases Nat.lt_trichotomy p r with hlt | heq | hgt
  · rcases hend with h | h
    · omega
    · exact absurd (hpad (7 - p) (by omega) (by omega)) h
  · exact heq
  · exact absurd (hrun (8 - p) le_rfl (by omega) ▸ hnone) (hdata (8 - p) (by omega))

end Group

/-- Settles O37: an input that decodes is well formed, and no group of a well-formed input is malformed, so what is left of the two
answers is `InvalidCharacter`. -/
theorem malformedGroupsAreRejected : Obligations.MalformedGroupsAreRejected := by
  intro s n c g p hi hp h8 hfit hin hg hp8 hrun hend hbad
  obtain ⟨-, -, -, hreads, -⟩ := commandsReportTheFirstCause s n hi
  obtain ⟨t, ht, hok | hrejected⟩ := hreads hp h8 hfit fun i h => by rw [hin i h]; nofun
  · obtain ⟨q, hq, hle, hdata, hpad⟩ := (decodeAcceptsExactlyWellFormedInput s n c hi hp h8 hfit hin).1 ⟨t, ht, hok⟩
    obtain ⟨r, hlegal, hlast, hvalues, htail⟩ := group_of_wellFormed h8 hg hq hdata hpad
    have hnone : decLookup s.dt padChar = none := by rw [hi.dt_built]; exact decLookup_padding
    obtain rfl : p = r := trailingRun_unique (d := fun k => c (8 * g + k)) hnone (by omega) hp8 hvalues htail hrun hend
    rcases hbad with hillegal | ⟨h0, hnotLast⟩ | ⟨k, hk, hinvalid⟩
    · omega
    · omega
    · exact absurd hinvalid (hvalues k hk)
  · exact ⟨t, ht, hrejected, exec_sameButCodec (i := .decode) rfl nofun ht⟩

end Sys2Proof.Machine
end

section
/-! PROOFS. Every accepted command completes (60_exceptions.md R244): each step of a running command ends it or spends one of the turns
left (70_reset_and_hazards.md R269). -/

namespace Sys2Proof.Machine

section Progress
variable {s t : State} {op : Command} {l : Word}

/-- Every instruction has a meaning in every state: it goes on or raises a model fault (R235). -/
theorem exec_ne_refused (i : Instr) (s : State) (r : Refusal) : exec i s ≠ .refused r := by
  intro h
  cases i with
  | buildTables => cases h
  | illegal w => cases h
  | prepEncode => rcases growAndComplete_cases s (projEnc s.operand) with ⟨-, e⟩ | ⟨_, -, e⟩ <;> cases e.symm.trans h
  | prepDecode => rcases growAndComplete_cases s (projDec s.operand) with ⟨-, e⟩ | ⟨_, -, e⟩ <;> cases e.symm.trans h
  | encode => rcases execEncode_cases s with ⟨-, e⟩ | ⟨_, -, ⟨-, e⟩ | ⟨_, -, e⟩⟩ <;> cases e.symm.trans h
  | decode =>
    rcases execDecode_cases s with ⟨-, e⟩ | ⟨-, -, e⟩ | ⟨_, -, -, ⟨-, e⟩ | ⟨_, -, ⟨-, e⟩ | ⟨_, -, e⟩⟩⟩ <;>
      cases e.symm.trans h
  | regRd a => rcases execRegRd_cases a s with ⟨-, e⟩ | ⟨_, -, ⟨-, -, e⟩ | ⟨-, e⟩⟩ <;> cases e.symm.trans h
  | regWr a d =>
    rw [show exec (.regWr a d) s = execRegWr a d s from rfl, execRegWr] at h
    split at h
    case h_2 | h_3 => split_ifs at h
    all_goals cases h
  | memRd a =>
    rw [show exec (.memRd a) s = execMemRd a s from rfl, execMemRd] at h
    split_ifs at h
    split at h <;> cases h
  | memWr a d =>
    rw [show exec (.memWr a d) s = execMemWr a d s from rfl, execMemWr] at h
    split_ifs at h

theorem exec_next_or_fault (i : Instr) (s : State) : (∃ t, exec i s = .next t) ∨ ∃ r, exec i s = .fault r := by
  cases h : exec i s with
  | next t => exact Or.inl ⟨t, rfl⟩
  | fault r => exact Or.inr ⟨r, rfl⟩
  | refused r => exact absurd h (exec_ne_refused i s r)

/-- The engine has completed its command, or a reset among the host's moves has abandoned it (R244, 70_reset_and_hazards.md R261). -/
structure Ended (moves : List HostMove) (t : State) : Prop where
  idle : t.phase = .idle
  done : .reset ∉ moves → t.done = true

/-- The command still runs and has spent one of its turns, and no host move has come to those it had. -/
structure Waited (s t : State) : Prop where
  phase : t.phase = s.phase
  moves : t.hostQueue ⊆ s.hostQueue
  turns : s.turns.length = t.turns.length + 1

theorem step_engine {q : List HostMove} {ts : List Agent} (moves : List HostMove)
    (h : s.fetch = .run op.instr (s.withHost q ts)) :
    (∃ t, step s = .next t ∧ Ended moves t) ∨ ∃ r, step s = .fault r := by
  rw [step_of_run h]
  rcases exec_next_or_fault op.instr (s.withHost q ts) with ⟨t, ht⟩ | hfault
  · obtain ⟨⟨hidle, hdone⟩, -⟩ := exec_command_next (command_not_transaction op) ht
    exact Or.inl ⟨t, ht, hidle, fun _ => hdone⟩
  · exact Or.inr hfault

/-- A transaction in phase `BUSY` that does not fault leaves the command running (44_host_access.md R214, 70_reset_and_hazards.md R263). -/
theorem exec_transaction_busy {i : Instr} (hi : isTransaction i = true) (hp : s.phase ≠ .idle) (h : exec i s = .next t) :
    t.phase = s.phase ∧ t.hostQueue = s.hostQueue ∧ t.turns = s.turns := by
  obtain ⟨-, hkeeps, -⟩ := onlyCompletionLeavesBusy i s t h
  obtain ⟨-, -, -, -, -, -, -, hqueue, hturns⟩ := exec_transaction_frame hi h
  obtain ⟨hphase, -⟩ := hkeeps hi hp
  exact ⟨hphase, hqueue, hturns⟩

/-- The host's move while a command runs. -/
theorem step_host {m : HostMove} {rest : List HostMove} {ts : List Agent} (hp : s.phase ≠ .idle)
    (hq : s.hostQueue = m :: rest) (ht : s.turns = .host :: ts) (h : s.fetch = hostFetch m rest ts s) :
    (∃ t, step s = .next t ∧ Ended s.hostQueue t) ∨ (∃ r, step s = .fault r) ∨ ∃ t, step s = .next t ∧ Waited s t := by
  have hrest : rest ⊆ s.hostQueue := hq ▸ List.subset_cons_self m rest
  have hturns : s.turns.length = ts.length + 1 := by rw [ht, List.length_cons]
  cases m with
  | bus x =>
    rw [step_of_run h]
    rcases exec_next_or_fault (decodeTxn x) (s.withHost rest ts) with ⟨t, e⟩ | hfault
    · obtain ⟨hphase, hqueue, hts⟩ := exec_transaction_busy (s := s.withHost rest ts) (decodeTxn_transaction x) hp e
      exact Or.inr (Or.inr ⟨t, e, hphase, hqueue ▸ hrest, hts ▸ hturns⟩)
    · exact Or.inr (Or.inl hfault)
  | regOtherWidth => exact Or.inr (Or.inl ⟨_, step_regOtherWidth h⟩)
  | wait =>
    refine Or.inr (Or.inr ⟨_, step_wait h, rfl, ?_, hturns⟩)
    rw [busy_of_not_idle hp, if_pos rfl, ← hq]
    exact List.Subset.refl _
  | reset =>
    refine Or.inl ⟨(s.withHost rest ts).hardReset, ?_, rfl, fun hno => ?_⟩
    · unfold step; rw [h, hostFetch]
    · exact absurd (hq ▸ List.mem_cons_self) hno

/-- A step of a running command ends it, faults, or spends a turn. -/
theorem step_busy (hp : s.phase = .busy op l) :
    (∃ t, step s = .next t ∧ Ended s.hostQueue t) ∨ (∃ r, step s = .fault r) ∨ ∃ t, step s = .next t ∧ Waited s t := by
  have hbusy : s.phase ≠ .idle := by rw [hp]; nofun
  rcases fetch_cases s with ⟨hidle, -⟩ | ⟨op', l', ts, -, h⟩ | ⟨m, rest, hq, ⟨hidle, -⟩ | ⟨op', l', ts, -, ht, h⟩⟩
  · exact absurd hidle hbusy
  · exact (step_engine s.hostQueue h).imp_right Or.inl
  · exact absurd hidle hbusy
  · exact step_host hbusy hq ht h

end Progress

/-! Runs -/

section Runs
variable {M : Host.Core} {s t : M.State}

theorem run_succ_next (h : M.step s = .next t) (k : Nat) : M.run (k + 1) s = M.run k t := by
  rw [Host.Core.run, h]

theorem run_succ_fault {r : M.Fault} (h : M.step s = .fault r) (k : Nat) : M.run (k + 1) s = .fault r := by
  rw [Host.Core.run, h]

end Runs

/-- A running command ends, or a host move faults, within the turns left and one step more. -/
theorem run_busy_ends {s : State} {op : Command} {l : Word} (hp : s.phase = .busy op l) :
    ∃ k, k ≤ s.turns.length + 1 ∧
      ((∃ t, core.run k s = .next t ∧ Ended s.hostQueue t) ∨ ∃ r, core.run k s = .fault r) := by
  rcases step_busy hp with ⟨t, ht, hend⟩ | ⟨r, hr⟩ | ⟨t, ht, hphase, hmoves, hturns⟩
  · exact ⟨1, Nat.le_add_left .., Or.inl ⟨t, run_succ_next (M := core) ht 0, hend⟩⟩
  · exact ⟨1, Nat.le_add_left .., Or.inr ⟨r, run_succ_fault (M := core) hr 0⟩⟩
  · obtain ⟨k, hk, hrun⟩ := run_busy_ends (hphase.trans hp)
    have hstep : core.run (k + 1) s = core.run k t := run_succ_next (M := core) ht k
    refine ⟨k + 1, by omega, ?_⟩
    rcases hrun with ⟨v, hv, hidle, hdone⟩ | ⟨r, hr⟩
    · exact Or.inl ⟨v, hstep.trans hv, hidle, fun hno => hdone fun hmem => hno (hmoves hmem)⟩
    · exact Or.inr ⟨r, hstep.trans hr⟩
termination_by s.turns.length

/-- Settles O8: the run that ends, whose last step is no reset when there is none among the host's moves. -/
theorem everyCommandCompletes : Obligations.EveryCommandCompletes := by
  intro s op l hp
  obtain ⟨k, hk, hrun⟩ := run_busy_ends hp
  refine ⟨fun hno => ⟨k, hk, hrun.imp_left ?_⟩, k, hk, hrun.imp_left ?_⟩
  · rintro ⟨t, ht, hidle, hdone⟩
    exact ⟨t, ht, hidle, hdone fun hmem => hno _ hmem rfl⟩
  · rintro ⟨t, ht, hidle, -⟩
    exact ⟨t, ht, hidle⟩

end Sys2Proof.Machine
end

section
/-! PROOFS. The host's accesses while a command runs: reads that respond with a free value (70_reset_and_hazards.md R266), and writes of
`CMD` and `LEN` (R263, R264). -/

namespace Sys2Proof.Machine

/-- The three registers R266 names. -/
theorem unspecifiedWhileBusy_iff (r : Reg) : unspecifiedWhileBusy r = true ↔ r = .outPtr ∨ r = .outLen ∨ r = .pages := by
  cases r <;> decide

/-- Settles O20: region reads by `exec_memRd_free`, register reads by whether R266 names the register. -/
theorem readsWhileBusyAreUnspecified : Obligations.ReadsWhileBusyAreUnspecified := by
  refine fun s hp => ⟨fun a ha => exec_memRd_free ha (.inl hp), fun r hr => ?_, fun r hptr hlen hpages => ?_⟩
  · exact exec_regRd_unspecified hp ((unspecifiedWhileBusy_iff r).2 hr)
  · have hr : unspecifiedWhileBusy r = false := by
      rw [← Bool.not_eq_true, unspecifiedWhileBusy_iff]
      simp [hptr, hlen, hpages]
    exact exec_regRd_specified s hr

/-- Settles O21: a command that runs makes the engine busy, which is what both writes check first. -/
theorem writesWhileBusyFault : Obligations.WritesWhileBusyFault := by
  intro s op l d hp
  have hb : s.busy = true := (busy_eq_true_iff s).2 ⟨op, l, hp⟩
  exact ⟨(exec_regWr_cmd s d).trans (if_pos hb), (exec_regWr_len s d).trans (if_pos hb)⟩

end Sys2Proof.Machine
end
